-- ==== Sys2Proof/Word.lean ====
section
/-! DEFINITION. The machine's word: the 8-bit unsigned byte of registers, memory cells and
immediates (00_scope.md R9; 90_conflicts.md C7 settles that a word is 8 bits), and the address. -/

namespace Sys2Proof

/-- An 8-bit unsigned value, 0..255 (R9). -/
abbrev Byte := BitVec 8

/-- A memory address. Only 0..255 exist (20_memory.md R40, R41), so an address is a byte and an
address outside memory cannot be formed: a rule that computes one checks it first. -/
abbrev Addr := BitVec 8

end Sys2Proof
end

