-- ==== Sys2Proof/Config.lean ====
section
/-! DEFINITION. The implementation parameters of 00_scope.md R7, each a named constant.
`OPCODE_MAP` stands in Sys2Proof/Decode.lean. -/

namespace Sys2Proof.Config

/-- `MEM_SIZE`: 256 cells of 8 bits (R7, R34). -/
@[simp] abbrev memSize : Nat := 256

/-- `NREG`: eight registers (R7, R20). -/
@[simp] abbrev nreg : Nat := 8

/-- `XLEN`: registers are 8 bits wide (R7, R20); `Byte` is that width. -/
@[simp] abbrev xlen : Nat := 8

/-- `SP_INDEX`: register 7 is the stack pointer (R7, R21). -/
abbrev spIndex : Fin nreg := 7

/-- `SP_INIT`: the stack pointer at reset (R7, R36). -/
@[simp] abbrev spInit : Byte := 0xF4#8

/-- `PC_INIT`: the reset vector (R7, R36). -/
@[simp] abbrev pcInit : Nat := 0

/-- `FL_INIT`: FL at reset, as a number (R7, R36). -/
@[simp] abbrev flInit : Byte := 0#8

/-- `FETCH_WINDOW`: three bytes, at pc, pc+1 and pc+2 (R7, R71). -/
@[simp] abbrev fetchWindow : Nat := 3

/-- `PC_BITS`: nine bits hold every value a step writes to pc (R7, R26). -/
@[simp] abbrev pcBits : Nat := 9

/-- `GPR_INIT`: the values of R0..R6 at reset, as `State.reset` takes them. The spec leaves them
OPEN (92_eei_decisions.md D5). DESIGN CHOICE (notes/assumptions/1.md, unsafe): zero, the value D5
believes the original software to set. Claims about reset quantify over every `GPR_INIT` through
`State.resetWith` instead. -/
def gprInit : Vector Byte 7 := Vector.replicate 7 0#8

end Sys2Proof.Config
end

