-- ==== Sys2Proof/Syntax.lean ====
section
/-! DEFINITION. The 13 instructions (00_scope.md R2), their closed enumeration of operations
(30_encoding.md R66) and their formats (R60). Operands are the raw operand bytes: a register operand
is the whole byte (R61), checked by the engine before the instruction runs (40_engine.md R73). -/

namespace Sys2Proof

/-- A valid register index, 0..7 (10_state.md R20, R23). -/
abbrev Reg := Fin Config.nreg

/-- The operation an opcode byte names (R57); the order is the table's. -/
inductive Op where
  | hlt | ret
  | push | pop | prn | call | jmp | jeq | jne
  | ldi | add | mul | cmp
deriving DecidableEq, Repr

/-- The formats of R60: no operand; one register; two registers; a register and an immediate. -/
inductive Format where
  | f0 | f1 | f2r | f2i
deriving DecidableEq, Repr

/-- The format column of R57. -/
def Op.format : Op → Format
  | .hlt | .ret => .f0
  | .push | .pop | .prn | .call | .jmp | .jeq | .jne => .f1
  | .add | .mul | .cmp => .f2r
  | .ldi => .f2i

/-- The length in bytes of an instruction of the format (R60). -/
def Format.length : Format → Nat
  | .f0 => 1
  | .f1 => 2
  | .f2r | .f2i => 3

/-- `uses_reg_a`: byte 1 is a register index in every format but F0 (R73, R75). -/
def Format.usesRegA : Format → Bool
  | .f0 => false
  | .f1 | .f2r | .f2i => true

/-- `uses_reg_b`: byte 2 is a register index only in F2R (R73, R75). -/
def Format.usesRegB : Format → Bool
  | .f2r => true
  | .f0 | .f1 | .f2i => false

/-- An instruction: one constructor per row of spec/opcode_table.json. `a` and `b` are the bytes at
pc+1 and pc+2 that the format uses (R60). -/
inductive Instr where
  /-- HLT (R98). -/
  | hlt
  /-- RET (R93). -/
  | ret
  /-- PUSH register a (R90). -/
  | push (a : Byte)
  /-- POP register a (R91). -/
  | pop (a : Byte)
  /-- PRN register a (R86). -/
  | prn (a : Byte)
  /-- CALL the address in register a (R92). -/
  | call (a : Byte)
  /-- JMP to the address in register a (R94). -/
  | jmp (a : Byte)
  /-- JEQ to the address in register a (R95). -/
  | jeq (a : Byte)
  /-- JNE to the address in register a (R96). -/
  | jne (a : Byte)
  /-- LDI register a, immediate b (R85). -/
  | ldi (a b : Byte)
  /-- ADD register a, register b (R82). -/
  | add (a b : Byte)
  /-- MUL register a, register b (R83). -/
  | mul (a b : Byte)
  /-- CMP register a, register b (R84). -/
  | cmp (a b : Byte)
deriving DecidableEq, Repr

/-- The operation of an instruction. -/
def Instr.op : Instr → Op
  | .hlt => .hlt
  | .ret => .ret
  | .push _ => .push
  | .pop _ => .pop
  | .prn _ => .prn
  | .call _ => .call
  | .jmp _ => .jmp
  | .jeq _ => .jeq
  | .jne _ => .jne
  | .ldi _ _ => .ldi
  | .add _ _ => .add
  | .mul _ _ => .mul
  | .cmp _ _ => .cmp

/-- The operand bytes of an instruction in encoding order (R60). -/
def Instr.operands : Instr → List Byte
  | .hlt | .ret => []
  | .push a | .pop a | .prn a | .call a | .jmp a | .jeq a | .jne a => [a]
  | .ldi a b | .add a b | .mul a b | .cmp a b => [a, b]

end Sys2Proof
end

