-- ==== Sys2Proof/Machine/State.lean ====
section
/-! DEFINITION. The state of the block as plain data (10_state.md), the fault record
(60_exceptions.md R100, R101), the reasons a step of the model stops, and the state after reset. -/

namespace Sys2Proof.Machine

/-- FL: three meaningful bits, written only by CMP (R28, R29). Bits 7:3 are hard-wired 0, so they
have no storage; `Flags.toByte` is the 8-bit view. -/
structure Flags where
  /-- Equal. -/
  e : Bool
  /-- Less-than. -/
  l : Bool
  /-- Greater-than. -/
  g : Bool
deriving DecidableEq, Repr

/-- The causes of R101. -/
inductive FaultCause where
  /-- The byte at pc is not in the opcode map (R56, R72). -/
  | unknownOpcode
  /-- The fetch window leaves memory (R71). -/
  | fetchOutOfRange
  /-- A register operand byte is 8..255 (R73). -/
  | invalidRegister
  /-- The stack would move beyond memory bounds (R88, R89). -/
  | stackOutOfRange
  /-- Kept for completeness; no step raises it (R102). -/
  | aluUnsupported
deriving DecidableEq, Repr

/-- Which operand byte an INVALID_REGISTER names: `a` (number 1) or `b` (number 2) (R73). -/
inductive OperandSlot where
  | a | b
deriving DecidableEq, Repr

/-- The kind of a stack fault (R88, R89). -/
inductive StackKind where
  | push | pop
deriving DecidableEq, Repr

/-- The `info` column of R101. -/
inductive FaultInfo where
  /-- Causes 1 and 2 record nothing beyond `fpc` and `opcode`. -/
  | noDetail
  /-- INVALID_REGISTER: the operand and the byte it holds. -/
  | register (operand : OperandSlot) (value : Byte)
  /-- STACK_OUT_OF_RANGE: SP before the faulting update, and push or pop. -/
  | stack (sp : Byte) (kind : StackKind)
  /-- ALU_UNSUPPORTED: the operation's name; never recorded (R102). -/
  | aluOperation (name : String)
deriving DecidableEq, Repr

/-- The fault record (R31, R100). -/
structure FaultRecord where
  cause  : FaultCause
  /-- The pc of the faulting instruction or of the failed fetch. -/
  fpc    : Nat
  /-- The byte at `fpc`, or none when the fetch itself faulted. -/
  opcode : Option Byte
  info   : FaultInfo
deriving DecidableEq, Repr

/-- Memory: the 256 cells (R34) as (address, byte) pairs in the canonical form of `Memory.wf`; an
unlisted address reads `Memory.unlisted`. -/
abbrev Memory := List Host.Cell

/-- Everything the spec gives the block (R20 to R39). -/
structure State where
  /-- `x[0]`..`x[7]`; `x[7]` is SP (R20, R21). -/
  regs  : Vector Byte Config.nreg
  /-- An unsigned number that never wraps (R25, R26). -/
  pc    : Nat
  /-- FL (R28). -/
  flags : Flags
  /-- The halt flag (R30). -/
  halt  : Bool
  /-- The fault record, once a fault was raised (R31). -/
  fault : Option FaultRecord
  /-- The 256-byte memory (R34). -/
  mem   : Memory
  /-- The numeric output side-channel, oldest byte first (R33). -/
  out   : List Byte
deriving DecidableEq, Repr

/-- The status of the block (R31). -/
inductive Status where
  | running | halted | faulted
deriving DecidableEq, Repr

/-- Why the model answers no next state. The faults the hardware raises are NOT among these: they
are next states with status Faulted (R76, R100). Both are safe: the spec defines no step there. -/
inductive Fault where
  /-- `step` on a Halted state (R77). Safe. -/
  | stepWhileHalted
  /-- `step` on a Faulted state (R77). Safe. -/
  | stepWhileFaulted
deriving DecidableEq, Repr

/-- Why the model declines a request. -/
inductive Refusal where
  /-- `exec` on an instruction without a meaning; no arm answers it. Safe. -/
  | notModelled (mnemonic : String)
  /-- `serve` on a reset with an image of over 256 bytes, which the host refuses (R116). Safe. -/
  | imageTooLong
deriving DecidableEq, Repr

/-- What a meaning, a step or a host request answers. -/
abbrev Result := Host.Outcome State Fault Refusal

/-- FL after reset: E = L = G = 0 (R36). -/
def Flags.clear : Flags := { e := false, l := false, g := false }

/-- The block right after reset with the empty image (R36, R115); R0..R6 take `Config.gprInit`
(DESIGN CHOICE, notes/assumptions/1.md). -/
def State.reset : State where
  regs  := Config.gprInit.push Config.spInit
  pc    := Config.pcInit
  flags := Flags.clear
  halt  := false
  fault := none
  mem   := []
  out   := []

end Sys2Proof.Machine
end

