-- ==== Sys2Proof/Machine/Flags.lean ====
section
/-! DEFINITION. The flag computation and the byte view of FL (10_state.md R28; 41_alu.md R84). -/

namespace Sys2Proof.Machine

/-- FL after `CMP` of `x` with `y`, unsigned: equal, else less-than, else greater-than (R84). -/
def compareFlags (x y : Byte) : Flags :=
  if x.toNat = y.toNat then { e := true, l := false, g := false }
  else if x.toNat < y.toNat then { e := false, l := true, g := false }
  else { e := false, l := false, g := true }

/-- FL as a byte: `00000LGE`, E bit 0, G bit 1, L bit 2, bits 7:3 hard-wired 0 (R28). No
instruction reads it (R29); the positions are the spec's decision D6 (PRESUMED,
notes/assumptions/3.md). -/
def Flags.toByte (f : Flags) : Byte :=
  0#5 ++ BitVec.ofBool f.l ++ BitVec.ofBool f.g ++ BitVec.ofBool f.e

/-- At most one of E, L, G is set: FL is clear (reset) or what CMP wrote (R29). -/
def Flags.atMostOne (f : Flags) : Bool :=
  !(f.e && f.l) && !(f.e && f.g) && !(f.l && f.g)

end Sys2Proof.Machine
end

