-- ==== Sys2Proof/WellFormed.lean ====
section
/-! DEFINITION. An instruction is well formed when every byte it uses as a register index is one
(10_state.md R23; 40_engine.md R73). An ill-formed instruction still has a meaning: it raises
INVALID_REGISTER. -/

namespace Sys2Proof

/-- The byte is a register index, 0..7 (R23, R61). -/
def isRegByte (v : Byte) : Bool := v.toNat < Config.nreg

/-- Every register operand of the instruction is 0..7; the immediate of LDI is never checked
(R62, R73). -/
def Instr.wf : Instr → Bool
  | .hlt | .ret => true
  | .push a | .pop a | .prn a | .call a | .jmp a | .jeq a | .jne a => isRegByte a
  | .ldi a _ => isRegByte a
  | .add a b | .mul a b | .cmp a b => isRegByte a && isRegByte b

end Sys2Proof
end

