-- ==== Sys2Proof/Decode.lean ====
section
/-! DEFINITION. The opcode map, the decoder (total on any three bytes) and the encoder
(30_encoding.md). -/

namespace Sys2Proof

/-- `OPCODE_MAP`, the one table of opcode bytes (R57; 92_eei_decisions.md D1). The byte values are
the spec's own from general knowledge (PRESUMED, notes/assumptions/2.md). -/
def Op.opcode : Op → Byte
  | .hlt  => 0x01#8
  | .ret  => 0x11#8
  | .push => 0x45#8
  | .pop  => 0x46#8
  | .prn  => 0x47#8
  | .call => 0x50#8
  | .jmp  => 0x54#8
  | .jeq  => 0x55#8
  | .jne  => 0x56#8
  | .ldi  => 0x82#8
  | .add  => 0xA0#8
  | .mul  => 0xA2#8
  | .cmp  => 0xA7#8

/-- The rows of the opcode map (R57). -/
def Op.all : List Op :=
  [.hlt, .ret, .push, .pop, .prn, .call, .jmp, .jeq, .jne, .ldi, .add, .mul, .cmp]

/-- Decoding compares all 8 bits of the opcode byte with the map (R57, R72). -/
def decodeOp (ir : Byte) : Option Op := Op.all.find? fun op => op.opcode == ir

/-- The length an opcode byte gives, legal or not: 1 + opcode[7:6] (R55). -/
def lengthFromOpcode (ir : Byte) : Nat := 1 + (ir.extractLsb' 6 2).toNat

/-- What decoding answers: an instruction, or the verdict "unknown opcode" (R66). -/
inductive Verdict where
  | instr (i : Instr)
  | unknownOpcode (opcode : Byte)
deriving DecidableEq, Repr

/-- Decode the fetch window: `ir` at pc, `a` at pc+1, `b` at pc+2 (R60, R72). Bytes the format does
not use are ignored (R63); a byte outside the map is rejected by name (R56). -/
def decode (ir a b : Byte) : Verdict :=
  match decodeOp ir with
  | none       => .unknownOpcode ir
  | some .hlt  => .instr .hlt
  | some .ret  => .instr .ret
  | some .push => .instr (.push a)
  | some .pop  => .instr (.pop a)
  | some .prn  => .instr (.prn a)
  | some .call => .instr (.call a)
  | some .jmp  => .instr (.jmp a)
  | some .jeq  => .instr (.jeq a)
  | some .jne  => .instr (.jne a)
  | some .ldi  => .instr (.ldi a b)
  | some .add  => .instr (.add a b)
  | some .mul  => .instr (.mul a b)
  | some .cmp  => .instr (.cmp a b)

/-- The bytes of an instruction: the opcode byte, then the operand bytes (R55, R60). -/
def encode (i : Instr) : List Byte := i.op.opcode :: i.operands

/-- Byte `k` of a word of `nbits` bits, the first byte being bits 7..0; the bits above `nbits`
are 0. -/
def tableByte (nbits w k : Nat) : Byte := BitVec.ofNat 8 (w % 2 ^ nbits / 2 ^ (8 * k))

/-- The decoder on an instruction given as spec/opcode_table.json numbers its bits: byte `k` of the
instruction is bits 8k+7..8k, and the longest instruction has three bytes. -/
def decodeTableWord (nbits w : Nat) : Option Instr :=
  match decode (tableByte nbits w 0) (tableByte nbits w 1) (tableByte nbits w 2) with
  | .instr i => some i
  | .unknownOpcode _ => none

end Sys2Proof
end

