-- ==== Sys2Proof/Machine/Memory.lean ====
section
/-! DEFINITION. The 256-byte memory: reading and writing one byte, the only access width
(20_memory.md R42, R43), over a canonical list of cells. -/

namespace Sys2Proof.Machine

/-- What an unlisted address reads as: memory is zero-initialised (R36, R115). -/
def Memory.unlisted : Byte := 0#8

/-- The canonical form: addresses strictly rise, each exists, and no cell holds what an unlisted
address reads as. -/
abbrev Memory.wf (m : Memory) : Prop :=
  m.Pairwise (fun c d => c.1 < d.1) ∧ ∀ c ∈ m, c.1 < Config.memSize ∧ c.2 ≠ Memory.unlisted

/-- The byte a list of cells gives a key. -/
def Memory.lookup : Memory → Nat → Byte
  | [], _ => Memory.unlisted
  | (k, v) :: rest, a => if k = a then v else Memory.lookup rest a

/-- The cells at other keys. -/
def Memory.erase (m : Memory) (a : Nat) : Memory := m.filter fun c => c.1 != a

/-- Put a cell before the first cell whose key is not smaller. -/
def Memory.insertCell : Memory → Nat → Byte → Memory
  | [], a, v => [(a, v)]
  | c :: rest, a, v => if c.1 < a then c :: Memory.insertCell rest a v else (a, v) :: c :: rest

/-- Store a byte at a key, keeping the canonical form. -/
def Memory.store (m : Memory) (a : Nat) (v : Byte) : Memory :=
  if v = Memory.unlisted then m.erase a else (m.erase a).insertCell a v

/-- `MemRead(addr, 1)` (R10, R41). -/
def Memory.read (m : Memory) (a : Addr) : Byte := Memory.lookup m a.toNat

/-- `MemWrite(addr, 1, v)` (R10, R41). -/
def Memory.write (m : Memory) (a : Addr) (v : Byte) : Memory := Memory.store m a.toNat v

/-- Bytes written into consecutive addresses from `a` upward (R115 step 2; R116 bounds them). -/
def Memory.load (m : Memory) (a : Nat) : List Byte → Memory
  | [] => m
  | v :: vs => Memory.load (Memory.write m (BitVec.ofNat 8 a) v) (a + 1) vs

end Sys2Proof.Machine
end

