-- ==== Sys2Proof/Machine/Ops.lean ====
section
/-! DEFINITION. The named operations over registers, memory, pc, output and stack that the
instruction rules are written in (00_scope.md R10; 43_stack.md R88, R89), and raising a fault
(60_exceptions.md R100). Nothing returns from a fault (R106), so no return operation exists. -/

namespace Sys2Proof.Machine

/-- `x[i]` (R10). -/
def State.reg (s : State) (i : Reg) : Byte := s.regs[i]

/-- `x[i] <- v` (R10). No register is hard-wired (R22). -/
def State.setReg (s : State) (i : Reg) (v : Byte) : State := { s with regs := s.regs.set i v }

/-- `SP`, an alias of `x[7]` (R21). -/
def State.sp (s : State) : Byte := s.reg Config.spIndex

/-- `SP <- v` (R21). -/
def State.setSp (s : State) (v : Byte) : State := s.setReg Config.spIndex v

/-- `pc <- target` (R10). -/
def State.setPc (s : State) (target : Nat) : State := { s with pc := target }

/-- `pc <- pc + n`, which never wraps (R26). -/
def State.advance (s : State) (n : Nat) : State := s.setPc (s.pc + n)

/-- `MemRead(a, 1)` (R10). -/
def State.memRead (s : State) (a : Addr) : Byte := s.mem.read a

/-- `MemWrite(a, 1, v)` (R10). -/
def State.memWrite (s : State) (a : Addr) (v : Byte) : State := { s with mem := s.mem.write a v }

/-- `emit(v)`: append to the output side-channel (R10, R33). -/
def State.emit (s : State) (v : Byte) : State := { s with out := s.out ++ [v] }

/-- `FL <- f` (R10). -/
def State.setFlags (s : State) (f : Flags) : State := { s with flags := f }

/-- `halt <- 1` (R10, R98). -/
def State.setHalt (s : State) : State := { s with halt := true }

/-- The status (R31), from the halt flag and the fault record. No reachable state has both; the
order of the two tests is notes/assumptions/6.md. -/
def State.status (s : State) : Status :=
  if s.fault.isSome then .faulted else if s.halt then .halted else .running

/-- Taking a fault, the block's only trap (R100): the record is written, with `fpc` the current pc,
and so the status is Faulted. Nothing else changes (R103). -/
def State.takeFault (s : State) (cause : FaultCause) (opcode : Option Byte) (info : FaultInfo) :
    State :=
  { s with fault := some { cause := cause, fpc := s.pc, opcode := opcode, info := info } }

/-- `raise Fault(cause, info)` from the state before the step, which ends it (R10, R100, R103). -/
def raise (cause : FaultCause) (opcode : Option Byte) (info : FaultInfo) (s : State) : Result :=
  .next (s.takeFault cause opcode info)

/-- `raise Fault(STACK_OUT_OF_RANGE, {sp, kind})` while `op` executes (R88, R89, R101). -/
def raiseStack (op : Op) (sp : Byte) (kind : StackKind) (s : State) : Result :=
  raise .stackOutOfRange (some op.opcode) (.stack sp kind) s

/-- `SP <- SP - 1`; none when SP = 0, which would leave memory (R88). -/
def State.spDec (s : State) : Option State :=
  if s.sp.toNat = 0 then none else some (s.setSp (BitVec.ofNat 8 (s.sp.toNat - 1)))

/-- `SP <- SP + 1`; none when SP = 255, which would leave memory (R89). -/
def State.spInc (s : State) : Option State :=
  if s.sp.toNat = Config.memSize - 1 then none
  else some (s.setSp (BitVec.ofNat 8 (s.sp.toNat + 1)))

/-- `push(v)` for a byte computed before the push (R88); none where it faults. -/
def State.push (s : State) (v : Byte) : Option State :=
  match s.spDec with
  | none    => none
  | some s₁ => some (s₁.memWrite s₁.sp v)

/-- POP's load, "reg[a] = mem[SP]" (R91). -/
def State.loadTop (s : State) (r : Reg) : State := s.setReg r (s.memRead s.sp)

/-- `pop()`: the byte and the state after the increment (R89); none where it faults. -/
def State.pop (s : State) : Option (Byte × State) :=
  match s.spInc with
  | none    => none
  | some s₁ => some (s.memRead s.sp, s₁)

end Sys2Proof.Machine
end

