-- ==== Sys2Proof/Machine/Operands.lean ====
section
/-! DEFINITION. The operand check (40_engine.md R73): every byte a decoded instruction uses as a
register index is checked before its rule runs. -/

namespace Sys2Proof.Machine

/-- The register an operand byte selects: the whole byte, 0..7, and none otherwise (R61). -/
def regIndex (v : Byte) : Option Reg :=
  if h : v.toNat < Config.nreg then some ⟨v.toNat, h⟩ else none

/-- The operand byte that selects a register. -/
def regByte (r : Reg) : Byte := BitVec.ofNat 8 r.val

/-- The number R73 gives an operand. -/
def OperandSlot.number : OperandSlot → Nat
  | .a => 1
  | .b => 2

/-- Check one register operand of `op`, then go on with the register; a bad byte raises
INVALID_REGISTER with the state before the step (R73). -/
def withReg (op : Op) (slot : OperandSlot) (v : Byte) (s : State) (k : Reg → Result) : Result :=
  match regIndex v with
  | none   => raise .invalidRegister (some op.opcode) (.register slot v) s
  | some r => k r

/-- The check of the one register operand of formats F1 and F2I (R60, R73). -/
def withRegA (op : Op) (a : Byte) (s : State) (k : Reg → Result) : Result :=
  withReg op .a a s k

/-- The check of both register operands of format F2R, `a` first (R60, R73, R104). -/
def withRegAB (op : Op) (a b : Byte) (s : State) (k : Reg → Reg → Result) : Result :=
  withReg op .a a s fun ra => withReg op .b b s fun rb => k ra rb

end Sys2Proof.Machine
end

