-- ==== Sys2Proof/Machine/Alu.lean ====
section
/-! DEFINITION. The ALU and its instructions ADD, MUL and CMP (41_alu.md). -/

namespace Sys2Proof.Machine

/-- The ALU's closed set of operations (R80); no other can be passed to it (R102). -/
inductive AluOp where
  | add | mul | cmp
deriving DecidableEq, Repr

/-- ADD's result: the exact sum, kept modulo 256 (R81, R82). -/
def aluSum (x y : Byte) : Byte := BitVec.ofNat 8 ((x.toNat + y.toNat) % 256)

/-- MUL's result: the exact product, kept modulo 256 (R81, R83). -/
def aluProduct (x y : Byte) : Byte := BitVec.ofNat 8 ((x.toNat * y.toNat) % 256)

/-- The ALU: read both registers, then write one result into the first register, or update FL
(R80). -/
def alu (op : AluOp) (a b : Reg) (s : State) : State :=
  match op with
  | .add => s.setReg a (aluSum (s.reg a) (s.reg b))
  | .mul => s.setReg a (aluProduct (s.reg a) (s.reg b))
  | .cmp => s.setFlags (compareFlags (s.reg a) (s.reg b))

/-- ADD (R82). -/
def execAdd (a b : Byte) (s : State) : Result :=
  withRegAB .add a b s fun ra rb => .next ((alu .add ra rb s).advance 3)

/-- MUL (R83). -/
def execMul (a b : Byte) (s : State) : Result :=
  withRegAB .mul a b s fun ra rb => .next ((alu .mul ra rb s).advance 3)

/-- CMP (R84). -/
def execCmp (a b : Byte) (s : State) : Result :=
  withRegAB .cmp a b s fun ra rb => .next ((alu .cmp ra rb s).advance 3)

end Sys2Proof.Machine
end

