-- ==== Sys2Proof/Machine/Control.lean ====
section
/-! DEFINITION. CALL, RET, JMP, JEQ and JNE (44_control.md). Every target is absolute, a register or
a popped byte (R97). -/

namespace Sys2Proof.Machine

/-- The return address as a byte. The fetch rule gives pc <= 253, so pc + 2 fits (R92); for a pc
no fetch reaches, the low byte (notes/assumptions/8.md). -/
def returnAddress (s : State) : Byte := BitVec.ofNat 8 (s.pc + 2)

/-- CALL: "push(PC+2); PC = reg[a]", the register read after the push (R92). -/
def execCall (a : Byte) (s : State) : Result :=
  withRegA .call a s fun ra =>
    match s.push (returnAddress s) with
    | none    => raiseStack .call s.sp .push s
    | some s₁ => .next (s₁.setPc (s₁.reg ra).toNat)

/-- RET: "PC = pop()" (R93). -/
def execRet (s : State) : Result :=
  match s.pop with
  | none         => raiseStack .ret s.sp .pop s
  | some (v, s₁) => .next (s₁.setPc v.toNat)

/-- The pc goes to register `ra` when `taken`, and past a two-byte instruction otherwise. -/
def branch (taken : Bool) (ra : Reg) (s : State) : Result :=
  if taken then .next (s.setPc (s.reg ra).toNat) else .next (s.advance 2)

/-- JMP (R94). -/
def execJmp (a : Byte) (s : State) : Result :=
  withRegA .jmp a s fun ra => .next (s.setPc (s.reg ra).toNat)

/-- JEQ: taken when E = 1; the operand is checked even when not taken (R95). -/
def execJeq (a : Byte) (s : State) : Result :=
  withRegA .jeq a s fun ra => branch s.flags.e ra s

/-- JNE: taken when E = 0; the operand is checked even when not taken (R96). -/
def execJne (a : Byte) (s : State) : Result :=
  withRegA .jne a s fun ra => branch (!s.flags.e) ra s

end Sys2Proof.Machine
end

