-- ==== Sys2Proof/Machine/Halt.lean ====
section
/-! DEFINITION. HLT (45_halt.md). -/

namespace Sys2Proof.Machine

/-- HLT: halt <- 1, so the status is Halted; pc still holds the address of the HLT (R98). -/
def execHlt (s : State) : Result := .next s.setHalt

end Sys2Proof.Machine
end

