-- ==== Sys2Proof/Machine/LoadOutput.lean ====
section
/-! DEFINITION. LDI and PRN (42_load_output.md). -/

namespace Sys2Proof.Machine

/-- LDI: the immediate byte `b` as it is, never checked (R62, R85). -/
def execLdi (a b : Byte) (s : State) : Result :=
  withRegA .ldi a s fun ra => .next ((s.setReg ra b).advance 3)

/-- PRN: append the register's byte to the output (R86). -/
def execPrn (a : Byte) (s : State) : Result :=
  withRegA .prn a s fun ra => .next ((s.emit (s.reg ra)).advance 2)

end Sys2Proof.Machine
end

