-- ==== Sys2Proof/Machine/Stack.lean ====
section
/-! DEFINITION. PUSH and POP (43_stack.md), in the source's literal statement order, which matters
when the operand is R7 (00_scope.md R11; 92_eei_decisions.md D9). -/

namespace Sys2Proof.Machine

/-- PUSH: "SP -= 1; mem[SP] = reg[a]", the register read after the decrement (R90). -/
def execPush (a : Byte) (s : State) : Result :=
  withRegA .push a s fun ra =>
    match s.spDec with
    | none    => raiseStack .push s.sp .push s
    | some s₁ => .next ((s₁.memWrite s₁.sp (s₁.reg ra)).advance 2)

/-- POP: "reg[a] = mem[SP]; SP += 1", the increment applied to SP as it is after the load; a
faulting POP commits nothing, the loaded register included (R91, R103). -/
def execPop (a : Byte) (s : State) : Result :=
  withRegA .pop a s fun ra =>
    match (s.loadTop ra).spInc with
    | none    => raiseStack .pop (s.loadTop ra).sp .pop s
    | some s₂ => .next (s₂.advance 2)

end Sys2Proof.Machine
end

