-- ==== Sys2Proof/Machine/Engine.lean ====
section
/-! DEFINITION. Fetching the window and one Running step of the engine (40_engine.md R71 to R75). -/

namespace Sys2Proof.Machine

/-- The fetch window: the bytes at pc, pc+1 and pc+2 (R71). -/
structure Window where
  ir : Byte
  a  : Byte
  b  : Byte
deriving DecidableEq, Repr

/-- The window reaches past the last address: pc + 2 > 255 (R71). -/
abbrev windowLeavesMemory (s : State) : Prop :=
  s.pc + (Config.fetchWindow - 1) > Config.memSize - 1

/-- The window at pc, read from the current memory (R51); none when pc + 2 > 255, whatever the
opcode would be (R71). -/
def fetch (s : State) : Option Window :=
  if windowLeavesMemory s then none
  else some
    { ir := s.memRead (BitVec.ofNat 8 s.pc)
      a  := s.memRead (BitVec.ofNat 8 (s.pc + 1))
      b  := s.memRead (BitVec.ofNat 8 (s.pc + 2)) }

/-- Decode a fetched window and run the instruction; an unknown opcode faults (R72 to R74). -/
def decodeAndRun (w : Window) (s : State) : Result :=
  match decode w.ir w.a w.b with
  | .unknownOpcode ir => raise .unknownOpcode (some ir) .noDetail s
  | .instr i          => exec i s

/-- The step of a Running block: fetch, then decode, check and run (R75). The order of its checks is
the fault priority of R104. -/
def runningStep (s : State) : Result :=
  match fetch s with
  | none   => raise .fetchOutOfRange none .noDetail s
  | some w => decodeAndRun w s

/-- Three bytes written at pc, pc+1 and pc+2 where these addresses exist. -/
def placeWindow (s : State) (w : Window) : State :=
  if windowLeavesMemory s then s
  else ((s.memWrite (BitVec.ofNat 8 s.pc) w.ir).memWrite (BitVec.ofNat 8 (s.pc + 1)) w.a).memWrite
    (BitVec.ofNat 8 (s.pc + 2)) w.b

end Sys2Proof.Machine
end

