-- ==== Sys2Proof/Machine/Step.lean ====
section
/-! DEFINITION. One step of the block (40_engine.md R70, R75, R77). -/

namespace Sys2Proof.Machine

/-- One step. It is defined only while Running (R70); Halted and Faulted are final (R77). A fault
the hardware raises is a next state with status Faulted (R76). -/
def step (s : State) : Host.Outcome State Fault Refusal :=
  match s.status with
  | .running => runningStep s
  | .halted  => .fault .stepWhileHalted
  | .faulted => .fault .stepWhileFaulted

/-- An instruction, numbered as spec/opcode_table.json numbers its bits, stored where `step` fetches
next: the three bytes of the window, those the word does not give being 0. It stands for the host's
loading of an image (notes/assumptions/10.md). -/
def State.withFetchWord (s : State) (nbits w : Nat) : State :=
  placeWindow s
    { ir := tableByte nbits w 0, a := tableByte nbits w 1, b := tableByte nbits w 2 }

end Sys2Proof.Machine
end

