-- ==== Sys2Proof/Machine/HostPort.lean ====
section
/-! DEFINITION. The block's interface to the host (10_state.md R35): reset with an image
(70_reset_and_hazards.md R115, R116), one step, and the outputs. -/

namespace Sys2Proof.Machine

/-- The state reset leaves for any `GPR_INIT` and image (R36, R115): every cell 0, then the image
from address 0 upward, pc 0, SP 0xF4, FL 0, halt 0, no record, out empty. -/
def State.resetWith (gprInit : Vector Byte 7) (image : List Byte) : State where
  regs  := gprInit.push Config.spInit
  pc    := Config.pcInit
  flags := Flags.clear
  halt  := false
  fault := none
  mem   := Memory.load [] 0 image
  out   := []

/-- What the host can ask of the block (R35). -/
inductive HostRequest where
  /-- Apply the entry contract with an image (R36, R115). -/
  | reset (image : List Byte)
  /-- Execute one instruction (R70). -/
  | step
deriving DecidableEq, Repr

/-- The block's answer to a request. Reset is obeyed in every status and keeps nothing of the former
state (R77, R113); an image of over 256 bytes is refused (R116). `GPR_INIT` is a parameter of the run
(R39). -/
def serve (gprInit : Vector Byte 7) (r : HostRequest) (s : State) : Result :=
  match r with
  | .step => step s
  | .reset image =>
    if image.length ≤ Config.memSize then .next (State.resetWith gprInit image)
    else .refused .imageTooLong

/-- What the host can read from the block (R35). -/
structure Outputs where
  out    : List Byte
  status : Status
  fault  : Option FaultRecord
deriving DecidableEq, Repr

/-- The outputs of a state; the record is an output when Faulted (R35). -/
def State.outputs (s : State) : Outputs := { out := s.out, status := s.status, fault := s.fault }

/-- How the host reports the end of a run (60_exceptions.md R108). The exit status's value and the
diagnostic's wording are left open there, so neither is modelled. -/
inductive HostReport where
  /-- "normal halt → clean return". -/
  | cleanReturn
  /-- A fatal error: a non-zero exit status, and for an unknown opcode a diagnostic that identifies
  the opcode and its address, which the record holds. -/
  | fatalError (record : FaultRecord)
deriving DecidableEq, Repr

/-- The report of a state; none while it is Running (R79, R108). -/
def State.report (s : State) : Option HostReport :=
  match s.fault with
  | some r => some (.fatalError r)
  | none   => if s.halt then some .cleanReturn else none

/-- The code of a cause (R101; the numbers are the spec's own, D13). -/
def FaultCause.code : FaultCause → Nat
  | .unknownOpcode   => 1
  | .fetchOutOfRange => 2
  | .invalidRegister => 3
  | .stackOutOfRange => 4
  | .aluUnsupported  => 5

end Sys2Proof.Machine
end

