-- ==== Sys2Proof/Machine/Run.lean ====
section
/-! DEFINITION. The run loop under fuel (40_engine.md R78). -/

namespace Sys2Proof.Machine

/-- At most `n` steps, stopping when the status is no longer Running (R78). -/
def run : Nat → State → State
  | 0, s => s
  | n + 1, s =>
    match step s with
    | .next t    => run n t
    | .fault _   => s
    | .refused _ => s

end Sys2Proof.Machine
end

