-- ==== Sys2Proof/Safety.lean ====
section
/-! DEFINITION. The terms claims use: the invariant of the block, and the ends of a run
(40_engine.md R79). -/

namespace Sys2Proof.Machine

/-- The byte at pc, the opcode byte of a fetch inside memory (R71). -/
def State.opcodeAt (s : State) : Byte := s.memRead (BitVec.ofNat 8 s.pc)

/-- The byte at pc + 1, operand `a` (R60). -/
def State.firstAt (s : State) : Byte := s.memRead (BitVec.ofNat 8 (s.pc + 1))

/-- The byte at pc + 2, operand `b` (R60). -/
def State.secondAt (s : State) : Byte := s.memRead (BitVec.ofNat 8 (s.pc + 2))

/-- The block is Running and its fetch window, which lies inside memory, holds the instruction `i`
(R70 to R72). -/
def State.AtInstr (s : State) (i : Instr) : Prop :=
  s.status = .running ∧ s.pc ≤ 253 ∧ decode s.opcodeAt s.firstAt s.secondAt = .instr i

/-- Whether the instruction writes the register, by the table of 10_state.md R24 (POP writes `x[a]` and
then `x[7]`, see notes/assumptions/14.md). -/
def writesReg : Instr → Reg → Bool
  | .ldi a _, r | .add a _, r | .mul a _, r => a.toNat == r.val
  | .pop a, r => a.toNat == r.val || r == Config.spIndex
  | .push _, r | .call _, r | .ret, r => r == Config.spIndex
  | .prn _, _ | .cmp _ _, _ | .jmp _, _ | .jeq _, _ | .jne _, _ | .hlt, _ => false

/-- The state with a fault record written for the current pc and nothing else changed (R100). -/
def State.withRecord (s : State) (cause : FaultCause) (opcode : Option Byte) (info : FaultInfo) :
    State :=
  { s with fault := some { cause := cause, fpc := s.pc, opcode := opcode, info := info } }

/-- The info a record of a cause holds (60_exceptions.md R101). A stack fault is a push at SP = 0 or
a pop that would increment 255 (R88, R89); a bad register byte is 8..255 (R73). ALU_UNSUPPORTED is
never recorded (R102). -/
def FaultRecord.infoFits (r : FaultRecord) : Bool :=
  match r.cause, r.info with
  | .unknownOpcode, .noDetail            => true
  | .fetchOutOfRange, .noDetail          => true
  | .invalidRegister, .register _ v      => 8 ≤ v.toNat
  | .stackOutOfRange, .stack sp .push    => sp.toNat = 0
  | .stackOutOfRange, .stack sp .pop     => sp.toNat = 255
  | _, _                                 => false

/-- The record tells the truth about the state it left: `fpc` is the pc, which did not move; the
fetch faulted exactly when the window left memory, and then no opcode is recorded, otherwise the byte
at `fpc` is (R31, R71, R100, R103). -/
def FaultRecord.describes (r : FaultRecord) (s : State) : Prop :=
  r.fpc = s.pc ∧ r.infoFits = true ∧
    (if s.pc + 2 > 255 then r.cause = .fetchOutOfRange ∧ r.opcode = none
     else r.cause ≠ .fetchOutOfRange ∧ r.opcode = some s.opcodeAt)

/-- The invariant every step keeps. -/
structure State.Inv (s : State) : Prop where
  /-- Memory is in its canonical form. -/
  memory    : s.mem.wf
  /-- Nine bits suffice: the largest pc a step writes is 256 (10_state.md R26). -/
  pcBound   : s.pc ≤ 256
  /-- FL is clear or has exactly one bit set (R29). -/
  oneFlag   : s.flags.atMostOne = true
  /-- Halted and Faulted exclude each other (R31). -/
  oneEnd    : ¬ (s.halt = true ∧ s.fault.isSome = true)
  /-- A Halted block still points at its HLT (R98). -/
  haltedAt  : s.halt = true → s.pc ≤ 253 ∧ s.opcodeAt = 0x01#8
  /-- A Faulted block's record describes the state (R31, R100, R101). -/
  record    : ∀ r, s.fault = some r → r.describes s

/-- `s` leads to `t` in finitely many steps. -/
inductive Reaches : State → State → Prop where
  | refl (s : State) : Reaches s s
  | head {s t u : State} (h : step s = .next t) (r : Reaches t u) : Reaches s u

/-- Normal end: the run halts (R79). -/
def HaltsNormally (s : State) : Prop := ∃ n, (run n s).status = .halted

/-- Error end: the run faults (R79). -/
def EndsInFault (s : State) : Prop := ∃ n, (run n s).status = .faulted

/-- No end: an infinite run (R78, R79). -/
def Diverges (s : State) : Prop := ∀ n, (run n s).status = .running

end Sys2Proof.Machine
end

