-- ==== Sys2Proof/Certificates/Slice0/Obligations.lean ====
section
/-! DEFINITION. The statements for the provers, from the numbered rules of spec/. `x[i]` is
`s.reg i`, SP is `s.sp`, a byte of memory is `s.memRead`, and `s.withRecord` writes the fault record
for the current pc and changes nothing else. Choices that run through the file are the spec's own
decisions (92_eei_decisions.md), not the source's: the opcode byte values (D1,
notes/assumptions/2.md), that a faulting step commits nothing (D3, notes/assumptions/20.md), that a
register operand is checked before the instruction runs (D4, notes/assumptions/16.md), that only
leaving memory is a stack fault, SP above 0xF4 being legal (D8, notes/assumptions/17.md), and the
numbers of the fault causes (D13). Choices of single statements stand in their docstrings: the order
of PUSH, POP and CALL on R7 (D9, notes/assumptions/18.md), the sp a faulting POP R7 records
(notes/assumptions/9.md), POP's two registers where R76 counts one (notes/assumptions/14.md), wrapping modulo 256 (notes/assumptions/13.md), and the pc after HLT (D14,
notes/assumptions/22.md). A statement that states one of these has basis 'derived'; the one sentence
among the stated ones that touches them, R87's "A faulting step appends nothing", is what D3 calls
exact for the output. -/

open Sys2Proof Sys2Proof.Machine

/-! ## Encoding and decoding (30_encoding.md) -/

/-- The opcode map of R57, whose byte values are the spec's decision D1 (notes/assumptions/2.md):
each of the 13 bytes, written out bit by bit, decodes to its instruction with the operands
of its format, whatever the bytes the format ignores; no other byte decodes to an instruction. -/
def Obligations.OpcodeMapBytesDecode : Prop :=
  (∀ a b, decode 0b00000001#8 a b = .instr .hlt) ∧
  (∀ a b, decode 0b00010001#8 a b = .instr .ret) ∧
  (∀ a b, decode 0b01000101#8 a b = .instr (.push a)) ∧
  (∀ a b, decode 0b01000110#8 a b = .instr (.pop a)) ∧
  (∀ a b, decode 0b01000111#8 a b = .instr (.prn a)) ∧
  (∀ a b, decode 0b01010000#8 a b = .instr (.call a)) ∧
  (∀ a b, decode 0b01010100#8 a b = .instr (.jmp a)) ∧
  (∀ a b, decode 0b01010101#8 a b = .instr (.jeq a)) ∧
  (∀ a b, decode 0b01010110#8 a b = .instr (.jne a)) ∧
  (∀ a b, decode 0b10000010#8 a b = .instr (.ldi a b)) ∧
  (∀ a b, decode 0b10100000#8 a b = .instr (.add a b)) ∧
  (∀ a b, decode 0b10100010#8 a b = .instr (.mul a b)) ∧
  (∀ a b, decode 0b10100111#8 a b = .instr (.cmp a b)) ∧
  (∀ ir a b i, decode ir a b = .instr i →
    ir ∈ [0x01#8, 0x11#8, 0x45#8, 0x46#8, 0x47#8, 0x50#8, 0x54#8, 0x55#8, 0x56#8, 0x82#8, 0xA0#8,
      0xA2#8, 0xA7#8])

/-- Decoding and encoding agree for every instruction with every operand byte. Decoding the bytes of
`encode i`, whatever follows them in the window, gives `i` back; and a window decodes to `i` exactly
when it begins with the bytes of `encode i`, so no two instructions share an encoding. -/
def Obligations.DecodeAndEncodeAgree : Prop :=
  (∀ (i : Instr) (pad : List Byte),
    decode ((encode i ++ pad).getD 0 0) ((encode i ++ pad).getD 1 0) ((encode i ++ pad).getD 2 0)
      = .instr i) ∧
  (∀ (ir a b : Byte) (i : Instr), decode ir a b = .instr i ↔ encode i <+: [ir, a, b])

/-- R55: an instruction is 1 to 3 bytes, its opcode byte and its operand bytes; its length is
1 + opcode[7:6]; and a byte whose two high bits are 0b11 names no instruction. -/
def Obligations.LengthIsGivenByTheTwoHighBits : Prop :=
  (∀ ir a b i, decode ir a b = .instr i →
    (encode i).length = 1 + ir.toNat / 64 ∧ (encode i).length ≤ 3 ∧
    encode i = ir :: ([a, b].take (ir.toNat / 64))) ∧
  (∀ ir a b, ir.toNat / 64 = 3 → decode ir a b = .unknownOpcode ir)

/-- R56 and R72, over the byte values of the spec's decision D1 (notes/assumptions/2.md): 243 of the 256
byte values are illegal, 0x00 and 0xA1 among them, and a step that fetches one raises UNKNOWN_OPCODE
with the address and the byte. -/
def Obligations.IllegalOpcodeByteFaults : Prop :=
  (∀ a b : Byte, ((List.range 256).filter fun n =>
    decode (BitVec.ofNat 8 n) a b = .unknownOpcode (BitVec.ofNat 8 n)).length = 243) ∧
  (∀ a b : Byte, decode 0x00#8 a b = .unknownOpcode 0x00#8 ∧
    decode 0xA1#8 a b = .unknownOpcode 0xA1#8) ∧
  (∀ s : State, s.status = .running → s.pc ≤ 253 →
    s.opcodeAt ∉ [0x01#8, 0x11#8, 0x45#8, 0x46#8, 0x47#8, 0x50#8, 0x54#8, 0x55#8, 0x56#8, 0x82#8,
      0xA0#8, 0xA2#8, 0xA7#8] →
    step s = .next (s.withRecord .unknownOpcode (some s.opcodeAt) .noDetail))

/-! ## The engine's step (40_engine.md, 60_exceptions.md) -/

/-- R74, R75: a Running block whose window holds the instruction `i` runs the rule of `i` and adds
nothing to it. -/
def Obligations.StepRunsTheDecodedInstruction : Prop :=
  ∀ (s : State) (i : Instr), s.status = .running → s.pc ≤ 253 →
    decode s.opcodeAt s.firstAt s.secondAt = .instr i → step s = exec i s

/-- The fetch of R71, under the spec's decision D2 (notes/assumptions/15.md): the whole window is
checked before any byte is used. With pc + 2 > 255 the step raises
FETCH_OUT_OF_RANGE with no opcode; otherwise the fetch reads the bytes at pc, pc + 1 and pc + 2. -/
def Obligations.FetchReadsThreeBytesOrFaults : Prop :=
  (∀ s : State, s.status = .running → s.pc + 2 > 255 →
    step s = .next (s.withRecord .fetchOutOfRange none .noDetail)) ∧
  (∀ s : State, s.pc + 2 ≤ 255 →
    fetch s = some { ir := s.memRead (BitVec.ofNat 8 s.pc)
                     a  := s.memRead (BitVec.ofNat 8 (s.pc + 1))
                     b  := s.memRead (BitVec.ofNat 8 (s.pc + 2)) })

/-- The operand check of R73, under the spec's decision D4 (notes/assumptions/16.md): an instruction
whose operand `a` (every format but F0) is 8..255 raises INVALID_REGISTER for
operand 1, whatever it would then do; failing that, one of format F2R whose operand `b` is 8..255
raises it for operand 2. Nothing else raises it: the immediate of LDI is never checked. -/
def Obligations.BadRegisterOperandFaults : Prop :=
  (∀ (i : Instr) (a : Byte) (s : State), i ≠ .hlt → i ≠ .ret → i.operands.head? = some a →
    a.toNat > 7 →
    exec i s = .next (s.withRecord .invalidRegister (some i.op.opcode) (.register .a a))) ∧
  (∀ (i : Instr) (a b : Byte) (s : State), i = .add a b ∨ i = .mul a b ∨ i = .cmp a b →
    a.toNat ≤ 7 → b.toNat > 7 →
    exec i s = .next (s.withRecord .invalidRegister (some i.op.opcode) (.register .b b))) ∧
  (∀ (i : Instr) (s t : State) (r : FaultRecord), i.wf = true → exec i s = .next t →
    s.fault = none → t.fault = some r → r.cause ≠ .invalidRegister) ∧
  (∀ a b : Byte, (Instr.ldi a b).wf = decide (a.toNat ≤ 7)) ∧
  OperandSlot.a.number = 1 ∧ OperandSlot.b.number = 2

/-- The priority of R104, the spec's decision D10 (notes/assumptions/19.md): a faulting step reports the first cause that applies, in the order FETCH_OUT_OF_RANGE,
UNKNOWN_OPCODE, INVALID_REGISTER for `a`, INVALID_REGISTER for `b`, STACK_OUT_OF_RANGE. -/
def Obligations.FaultPriorityIsFixed : Prop :=
  ∀ (s t : State) (r : FaultRecord), s.status = .running → step s = .next t → t.fault = some r →
    (s.pc > 253 → r.cause = .fetchOutOfRange) ∧
    (s.pc ≤ 253 → decode s.opcodeAt s.firstAt s.secondAt = .unknownOpcode s.opcodeAt →
      r.cause = .unknownOpcode) ∧
    (∀ i, s.pc ≤ 253 → decode s.opcodeAt s.firstAt s.secondAt = .instr i →
      (i.op.format.usesRegA = true → s.firstAt.toNat > 7 →
        r.cause = .invalidRegister ∧ r.info = .register .a s.firstAt) ∧
      (i.op.format.usesRegB = true → s.firstAt.toNat ≤ 7 → s.secondAt.toNat > 7 →
        r.cause = .invalidRegister ∧ r.info = .register .b s.secondAt) ∧
      (i.wf = true → r.cause = .stackOutOfRange))

/-- R100 and R103, the spec's decision D3 (notes/assumptions/20.md): a step that faults changes nothing but the fault record (and so the status): no
register, FL, memory byte, pc, halt flag or output byte. The record's `fpc` is the pc. -/
def Obligations.FaultsArePreciseAndAtomic : Prop :=
  ∀ s t : State, s.status = .running → step s = .next t → t.status = .faulted →
    ∃ r : FaultRecord, t = { s with fault := some r } ∧ r.fpc = s.pc ∧
      (s.pc ≤ 253 → r.opcode = some s.opcodeAt) ∧ (s.pc > 253 → r.opcode = none)

/-- The outcomes of R76 (but for its count of registers, see notes/assumptions/14.md): every step of a
Running block answers a next state. It is Running, and then the only registers that changed are those
its instruction writes by the table of R24, the only byte of memory that may have changed is the one
at SP - 1, by a PUSH or a CALL (R42), and the only byte of output appended is a PRN's; or Halted by
HLT; or Faulted with a record. -/
def Obligations.RunningStepHasOneOfThreeOutcomes : Prop :=
  ∀ s : State, s.status = .running → ∃ t, step s = .next t ∧
    ((t.status = .running ∧ ∃ i, s.AtInstr i ∧
      (∀ r : Reg, writesReg i r = false → t.reg r = s.reg r) ∧
      (∀ y : Addr, y ≠ s.sp - 1 ∨ (∀ a, i ≠ .push a ∧ i ≠ .call a) → t.memRead y = s.memRead y) ∧
      (t.out = s.out ∨
        ∃ (a : Byte) (ra : Reg), i = .prn a ∧ a.toNat = ra.val ∧ t.out = s.out ++ [s.reg ra])) ∨
     (t.status = .halted ∧ s.AtInstr .hlt ∧ t = { s with halt := true }) ∨
     (t.status = .faulted ∧ ∃ r, t.fault = some r))

/-- R77: Halted and Faulted are final. No step is defined from either, and the only request of the
host that gives a state again is a reset, which gives a Running one. -/
def Obligations.HaltedAndFaultedAreFinal : Prop :=
  (∀ s : State, s.status = .halted → step s = .fault .stepWhileHalted) ∧
  (∀ s : State, s.status = .faulted → step s = .fault .stepWhileFaulted) ∧
  (∀ (g : Vector Byte 7) (q : HostRequest) (s t : State), s.status ≠ .running →
    serve g q s = .next t →
    ∃ image, q = .reset image ∧ t = State.resetWith g image ∧ t.status = .running)

/-- The table of R101, whose codes are the spec's own (D13): which instruction raises each cause, when,
and what the record holds. Three entries rest on choices: that only SP = 0 and SP = 255 are stack
faults (D8, notes/assumptions/17.md); that the SP a POP R7 increments is the loaded byte (D9,
notes/assumptions/18.md); and that a faulting POP R7 records that byte, the model's reading of R101's
"SP before the faulting update" (notes/assumptions/9.md). -/
def Obligations.EachCauseIsRaisedByItsInstructions : Prop :=
  (FaultCause.unknownOpcode.code = 1 ∧ FaultCause.fetchOutOfRange.code = 2 ∧
    FaultCause.invalidRegister.code = 3 ∧ FaultCause.stackOutOfRange.code = 4 ∧
    FaultCause.aluUnsupported.code = 5) ∧
  ∀ (s t : State) (r : FaultRecord), s.status = .running → step s = .next t → t.fault = some r →
    r.fpc = s.pc ∧
    (r.cause = .unknownOpcode →
      decode s.opcodeAt s.firstAt s.secondAt = .unknownOpcode s.opcodeAt ∧
      r.opcode = some s.opcodeAt ∧ r.info = .noDetail) ∧
    (r.cause = .fetchOutOfRange → s.pc + 2 > 255 ∧ r.opcode = none ∧ r.info = .noDetail) ∧
    (r.cause = .invalidRegister → ∃ i, s.AtInstr i ∧
      ((i.op.format.usesRegA = true ∧ s.firstAt.toNat > 7 ∧ r.info = .register .a s.firstAt) ∨
       (i.op.format.usesRegB = true ∧ s.firstAt.toNat ≤ 7 ∧ s.secondAt.toNat > 7 ∧
        r.info = .register .b s.secondAt))) ∧
    (r.cause = .stackOutOfRange →
      (∃ a, (s.AtInstr (.push a) ∨ s.AtInstr (.call a)) ∧ s.sp.toNat = 0 ∧
        r.info = .stack s.sp .push) ∨
      (s.AtInstr .ret ∧ s.sp.toNat = 255 ∧ r.info = .stack s.sp .pop) ∨
      (∃ a, s.AtInstr (.pop a) ∧ (if a.toNat = 7 then s.memRead s.sp else s.sp).toNat = 255 ∧
        r.info = .stack (if a.toNat = 7 then s.memRead s.sp else s.sp) .pop))

/-- R102: no step of any Running state raises ALU_UNSUPPORTED. So the code of a raised cause is one of
1 to 4; the codes are not R102's but the table's of R101, and the spec's own (D13). -/
def Obligations.AluUnsupportedIsUnreachable : Prop :=
  ∀ (s t : State) (r : FaultRecord), s.status = .running → step s = .next t → t.fault = some r →
    r.cause ≠ .aluUnsupported ∧ r.cause.code ∈ [1, 2, 3, 4]

/-- R79 (derived): every run ends normally, ends in a fault, or has no end, and no two of these. -/
def Obligations.EveryRunHasExactlyOneEnd : Prop :=
  ∀ s : State, (HaltsNormally s ∨ EndsInFault s ∨ Diverges s) ∧
    ¬ (HaltsNormally s ∧ EndsInFault s) ∧ ¬ (HaltsNormally s ∧ Diverges s) ∧
    ¬ (EndsInFault s ∧ Diverges s)

/-! ## Reset and the host (10_state.md, 70_reset_and_hazards.md) -/

/-- R36: reset, whatever the state before it, for every `GPR_INIT` and every image of at most 256
bytes. -/
def Obligations.ResetAppliesTheEntryContract : Prop :=
  ∀ (g : Vector Byte 7) (image : List Byte) (s : State), image.length ≤ 256 →
    ∃ t, serve g (.reset image) s = .next t ∧
      (∀ i : Addr, t.memRead i = image.getD i.toNat 0) ∧
      t.pc = 0 ∧ t.reg 7 = 0xF4#8 ∧
      (∀ k : Fin 7, t.reg (Fin.castSucc k) = g[k]) ∧
      t.flags = { e := false, l := false, g := false } ∧ t.flags.toByte = 0#8 ∧
      t.halt = false ∧ t.status = .running ∧ t.fault = none ∧ t.out = []

/-- R116 (D17, the spec's own decision): an image of over 256 bytes is refused; the block is never
reset with one. -/
def Obligations.OverlongImageIsRefused : Prop :=
  ∀ (g : Vector Byte 7) (image : List Byte) (s : State), image.length > 256 →
    serve g (.reset image) s = .refused .imageTooLong

/-- The invariant holds after every reset, and so in `State.reset`. -/
def Obligations.InvariantHoldsAfterReset : Prop :=
  (∀ (g : Vector Byte 7) (image : List Byte), image.length ≤ 256 → (State.resetWith g image).Inv) ∧
  State.reset.Inv

/-- Every step keeps the invariant: memory canonical, pc at most 256 (nine bits), at most one flag,
not both halted and faulted, a Halted block still at its HLT (the spec's decision D14,
notes/assumptions/22.md), a Faulted block's record true (a stack fault's sp is 0 or 255, D8,
notes/assumptions/17.md and 9.md). -/
def Obligations.EveryStepKeepsTheInvariant : Prop :=
  ∀ s t : State, s.Inv → step s = .next t → t.Inv

/-- So the invariant holds in every state that a run from a reset with any image reaches. -/
def Obligations.EveryReachableStateHasTheInvariant : Prop :=
  ∀ (g : Vector Byte 7) (image : List Byte) (t : State), image.length ≤ 256 →
    Reaches (State.resetWith g image) t → t.Inv

/-- Canonical memories that read alike at every address are equal. -/
def Obligations.MemoriesThatReadAlikeAreEqual : Prop :=
  ∀ m n : Memory, m.wf → n.wf → (∀ a : Addr, m.read a = n.read a) → m = n

/-- After reset the first window is the first three bytes of the image, 0 where it is shorter
(R117). -/
def Obligations.FirstFetchReadsTheImage : Prop :=
  ∀ (g : Vector Byte 7) (image : List Byte), image.length ≤ 256 →
    fetch (State.resetWith g image)
      = some { ir := image.getD 0 0, a := image.getD 1 0, b := image.getD 2 0 }

/-! ## The ALU (41_alu.md) -/

/-- ADD as R82 gives it, with its encoding, its effect, and its only faults. Keeping the sum modulo
256 is R81's reading of the source, normative by 90_conflicts.md C8 (notes/assumptions/13.md). -/
def Obligations.AddKeepsTheSumModulo256 : Prop :=
  ∀ (a b : Byte) (s : State),
    decode 0xA0#8 a b = .instr (.add a b) ∧ encode (.add a b) = [0xA0#8, a, b] ∧
    (∀ ra rb : Reg, a.toNat = ra.val → b.toNat = rb.val →
      exec (.add a b) s = .next { s with
        regs := s.regs.set ra (BitVec.ofNat 8 (((s.reg ra).toNat + (s.reg rb).toNat) % 256))
        pc   := s.pc + 3 }) ∧
    (a.toNat > 7 → exec (.add a b) s
      = .next (s.withRecord .invalidRegister (some 0xA0#8) (.register .a a))) ∧
    (a.toNat ≤ 7 → b.toNat > 7 → exec (.add a b) s
      = .next (s.withRecord .invalidRegister (some 0xA0#8) (.register .b b)))

/-- MUL as R83 gives it, with its encoding, its effect, and its only faults. Keeping the product modulo
256 is R81's reading of the source, normative by 90_conflicts.md C8 (notes/assumptions/13.md). -/
def Obligations.MulKeepsTheProductModulo256 : Prop :=
  ∀ (a b : Byte) (s : State),
    decode 0xA2#8 a b = .instr (.mul a b) ∧ encode (.mul a b) = [0xA2#8, a, b] ∧
    (∀ ra rb : Reg, a.toNat = ra.val → b.toNat = rb.val →
      exec (.mul a b) s = .next { s with
        regs := s.regs.set ra (BitVec.ofNat 8 (((s.reg ra).toNat * (s.reg rb).toNat) % 256))
        pc   := s.pc + 3 }) ∧
    (a.toNat > 7 → exec (.mul a b) s
      = .next (s.withRecord .invalidRegister (some 0xA2#8) (.register .a a))) ∧
    (a.toNat ≤ 7 → b.toNat > 7 → exec (.mul a b) s
      = .next (s.withRecord .invalidRegister (some 0xA2#8) (.register .b b)))

/-- CMP as R84 gives it, unsigned, with its encoding, the three flags it writes, and its only faults.
Byte 0xA7 is the spec's decision D1 (notes/assumptions/2.md); that a bad operand faults before the
instruction runs is D4 (notes/assumptions/16.md). -/
def Obligations.CmpSetsExactlyOneFlag : Prop :=
  ∀ (a b : Byte) (s : State),
    decode 0xA7#8 a b = .instr (.cmp a b) ∧ encode (.cmp a b) = [0xA7#8, a, b] ∧
    (∀ ra rb : Reg, a.toNat = ra.val → b.toNat = rb.val →
      ∃ f : Flags, exec (.cmp a b) s = .next { s with flags := f, pc := s.pc + 3 } ∧
        ((s.reg ra).toNat = (s.reg rb).toNat →
          f = { e := true, l := false, g := false }) ∧
        ((s.reg ra).toNat < (s.reg rb).toNat →
          f = { e := false, l := true, g := false }) ∧
        ((s.reg ra).toNat > (s.reg rb).toNat →
          f = { e := false, l := false, g := true }) ∧
        f.toByte.toNat < 8) ∧
    (a.toNat > 7 → exec (.cmp a b) s
      = .next (s.withRecord .invalidRegister (some 0xA7#8) (.register .a a))) ∧
    (a.toNat ≤ 7 → b.toNat > 7 → exec (.cmp a b) s
      = .next (s.withRecord .invalidRegister (some 0xA7#8) (.register .b b)))

/-- The layout of FL in R28, the spec's decision D6 (notes/assumptions/3.md): E is bit 0 of FL, G is
bit 1, L is bit 2, and bits 7:3 are always 0. -/
def Obligations.FlagByteLayout : Prop :=
  ∀ f : Flags, f.toByte.getLsbD 0 = f.e ∧ f.toByte.getLsbD 1 = f.g ∧ f.toByte.getLsbD 2 = f.l ∧
    f.toByte.toNat < 8

/-! ## Load and output (42_load_output.md) -/

/-- LDI as R85 gives it, for every immediate, with its encoding, its effect, and its only fault.
Byte 0x82 is the spec's decision D1 (notes/assumptions/2.md); that a bad operand faults is D4
(notes/assumptions/16.md). -/
def Obligations.LdiLoadsTheImmediate : Prop :=
  ∀ (a b : Byte) (s : State),
    decode 0x82#8 a b = .instr (.ldi a b) ∧ encode (.ldi a b) = [0x82#8, a, b] ∧
    (∀ ra : Reg, a.toNat = ra.val →
      exec (.ldi a b) s = .next { s with regs := s.regs.set ra b, pc := s.pc + 3 }) ∧
    (a.toNat > 7 → exec (.ldi a b) s
      = .next (s.withRecord .invalidRegister (some 0x82#8) (.register .a a)))

/-- PRN as R86 gives it, with its encoding, its effect, and its only fault. Byte 0x47 is the
spec's decision D1 (notes/assumptions/2.md); that a bad operand faults is D4 (notes/assumptions/16.md). -/
def Obligations.PrnAppendsTheRegister : Prop :=
  ∀ (a : Byte) (s : State),
    (∀ b, decode 0x47#8 a b = .instr (.prn a)) ∧ encode (.prn a) = [0x47#8, a] ∧
    (∀ ra : Reg, a.toNat = ra.val →
      exec (.prn a) s = .next { s with out := s.out ++ [s.reg ra], pc := s.pc + 2 }) ∧
    (a.toNat > 7 → exec (.prn a) s
      = .next (s.withRecord .invalidRegister (some 0x47#8) (.register .a a)))

/-- R87: only PRN appends to `out`, one byte per PRN; a faulting step appends nothing; no step's
other effects depend on `out`; only reset empties it. -/
def Obligations.OnlyPrnAppendsOutput : Prop :=
  (∀ s t : State, step s = .next t →
    t.out = s.out ∨
    ∃ (a : Byte) (ra : Reg), s.AtInstr (.prn a) ∧ a.toNat = ra.val ∧ t.out = s.out ++ [s.reg ra]) ∧
  (∀ (s t : State) (a : Byte), s.AtInstr (.prn a) → a.toNat ≤ 7 → step s = .next t →
    t.out.length = s.out.length + 1) ∧
  (∀ s t : State, step s = .next t → t.status = .faulted → t.out = s.out) ∧
  (∀ (s t : State) (o : List Byte), step s = .next t →
    step { s with out := o } = .next { t with out := o ++ t.out.drop s.out.length }) ∧
  (∀ (g : Vector Byte 7) (q : HostRequest) (s t : State), serve g q s = .next t → s.out ≠ [] →
    t.out = [] → ∃ image, q = .reset image)

/-! ## Stack (43_stack.md) -/

/-- PUSH as R90 gives it. That the register is read after the decrement, so that R7 stores the
decremented SP, is the spec's decision D9 (notes/assumptions/18.md); that it runs at every SP but 0,
above 0xF4 too, is D8 (notes/assumptions/17.md). -/
def Obligations.PushStoresBelowTheStackPointer : Prop :=
  ∀ (a : Byte) (s : State),
    (∀ b, decode 0x45#8 a b = .instr (.push a)) ∧ encode (.push a) = [0x45#8, a] ∧
    (∀ ra : Reg, a.toNat = ra.val → s.sp.toNat ≠ 0 →
      ∃ t, exec (.push a) s = .next t ∧
        t.regs = s.regs.set 7 (s.sp - 1) ∧ t.pc = s.pc + 2 ∧
        t.memRead (s.sp - 1) = (if ra = 7 then s.sp - 1 else s.reg ra) ∧
        (∀ x : Addr, x ≠ s.sp - 1 → t.memRead x = s.memRead x) ∧
        t.flags = s.flags ∧ t.halt = s.halt ∧ t.fault = s.fault ∧ t.out = s.out) ∧
    (a.toNat ≤ 7 → s.sp.toNat = 0 → exec (.push a) s
      = .next (s.withRecord .stackOutOfRange (some 0x45#8) (.stack s.sp .push))) ∧
    (a.toNat > 7 → exec (.push a) s
      = .next (s.withRecord .invalidRegister (some 0x45#8) (.register .a a)))

/-- POP as R91 gives it. That the increment applies to SP as it is after the load, so for R7 to the
loaded byte, is the spec's decision D9 (notes/assumptions/18.md); that a faulting POP R7 records the
loaded byte as its sp is notes/assumptions/9.md; that it runs at every SP but 255, above 0xF4 too, is
D8 (notes/assumptions/17.md). That two registers are written is R91 and R24 against the count of R76
(notes/assumptions/14.md). -/
def Obligations.PopLoadsThenIncrements : Prop :=
  ∀ (a : Byte) (s : State),
    (∀ b, decode 0x46#8 a b = .instr (.pop a)) ∧ encode (.pop a) = [0x46#8, a] ∧
    (∀ ra : Reg, a.toNat = ra.val → ra ≠ 7 → s.sp.toNat ≠ 255 →
      exec (.pop a) s = .next { s with
        regs := (s.regs.set ra (s.memRead s.sp)).set 7 (s.sp + 1), pc := s.pc + 2 }) ∧
    (a.toNat = 7 → (s.memRead s.sp).toNat ≠ 255 →
      exec (.pop a) s = .next { s with
        regs := s.regs.set 7 (s.memRead s.sp + 1), pc := s.pc + 2 }) ∧
    (a.toNat < 7 → s.sp.toNat = 255 → exec (.pop a) s
      = .next (s.withRecord .stackOutOfRange (some 0x46#8) (.stack s.sp .pop))) ∧
    (a.toNat = 7 → (s.memRead s.sp).toNat = 255 → exec (.pop a) s
      = .next (s.withRecord .stackOutOfRange (some 0x46#8) (.stack (s.memRead s.sp) .pop))) ∧
    (a.toNat > 7 → exec (.pop a) s
      = .next (s.withRecord .invalidRegister (some 0x46#8) (.register .a a)))

/-- The property under R91, for every register, R7 too (by the order of D9, notes/assumptions/18.md):
PUSH and then POP of the same register restore the register and SP, both completing at every SP but 0
(D8, notes/assumptions/17.md). That POP writes both is R91 against R76's count
(notes/assumptions/14.md). -/
def Obligations.PushThenPopRestores : Prop :=
  ∀ (a : Byte) (ra : Reg) (s : State), a.toNat = ra.val → s.sp.toNat ≠ 0 →
    ∃ t u, exec (.push a) s = .next t ∧ exec (.pop a) t = .next u ∧
      u.reg ra = s.reg ra ∧ u.sp = s.sp ∧ u.regs = s.regs ∧ u.pc = s.pc + 4

/-- R51, for the very next fetch: the byte a PUSH or a CALL stores is the byte that fetch reads at its
address, at each of the three places of the window. After a PUSH the window begins at pc + 2, after a
CALL at its target, the register read after the push. With R7 as the operand both follow D9
(notes/assumptions/18.md); SP above 0xF4 is D8 (notes/assumptions/17.md). -/
def Obligations.NextFetchSeesThePushedByte : Prop :=
  ∀ (a : Byte) (ra : Reg) (s : State) (k : Nat), a.toNat = ra.val → s.sp.toNat ≠ 0 → k < 3 →
    (s.pc ≤ 251 → s.pc + 2 + k = s.sp.toNat - 1 →
      ∃ t w, exec (.push a) s = .next t ∧ fetch t = some w ∧
        [w.ir, w.a, w.b].getD k 0 = (if ra = 7 then s.sp - 1 else s.reg ra)) ∧
    (s.pc ≤ 253 → (if ra = 7 then s.sp - 1 else s.reg ra).toNat ≤ 253 →
      (if ra = 7 then s.sp - 1 else s.reg ra).toNat + k = s.sp.toNat - 1 →
      ∃ t w, exec (.call a) s = .next t ∧ fetch t = some w ∧
        ([w.ir, w.a, w.b].getD k 0).toNat = s.pc + 2)

/-! ## Control transfer (44_control.md) -/

/-- CALL as R92 gives it; the fetch rule gives pc <= 253. That the target is read after the push, so
that R7 jumps to the decremented SP, is the spec's decision D9 (notes/assumptions/18.md); that it runs
at every SP but 0, above 0xF4 too, is D8 (notes/assumptions/17.md). -/
def Obligations.CallPushesTheReturnAddress : Prop :=
  ∀ (a : Byte) (s : State),
    (∀ b, decode 0x50#8 a b = .instr (.call a)) ∧ encode (.call a) = [0x50#8, a] ∧
    (∀ ra : Reg, a.toNat = ra.val → s.pc ≤ 253 → s.sp.toNat ≠ 0 →
      ∃ t, exec (.call a) s = .next t ∧
        t.regs = s.regs.set 7 (s.sp - 1) ∧
        t.pc = (if ra = 7 then s.sp - 1 else s.reg ra).toNat ∧
        (t.memRead (s.sp - 1)).toNat = s.pc + 2 ∧
        (∀ x : Addr, x ≠ s.sp - 1 → t.memRead x = s.memRead x) ∧
        t.flags = s.flags ∧ t.halt = s.halt ∧ t.fault = s.fault ∧ t.out = s.out) ∧
    (a.toNat ≤ 7 → s.sp.toNat = 0 → exec (.call a) s
      = .next (s.withRecord .stackOutOfRange (some 0x50#8) (.stack s.sp .push))) ∧
    (a.toNat > 7 → exec (.call a) s
      = .next (s.withRecord .invalidRegister (some 0x50#8) (.register .a a)))

/-- RET as R93 gives it, its operand bytes ignored. That it completes at every SP but 255 and faults
only there is the spec's decision D8 (notes/assumptions/17.md). -/
def Obligations.RetPopsThePc : Prop :=
  ∀ s : State,
    (∀ a b, decode 0x11#8 a b = .instr .ret) ∧ encode .ret = [0x11#8] ∧
    (s.sp.toNat ≠ 255 → exec .ret s
      = .next { s with regs := s.regs.set 7 (s.sp + 1), pc := (s.memRead s.sp).toNat }) ∧
    (s.sp.toNat = 255 → exec .ret s
      = .next (s.withRecord .stackOutOfRange (some 0x11#8) (.stack s.sp .pop)))

/-- The property under R97: CALL and then RET resume at the instruction after the CALL, with SP and
every register as before, at every SP but 0 (D8, notes/assumptions/17.md). -/
def Obligations.CallThenRetResumes : Prop :=
  ∀ (a : Byte) (s : State), a.toNat ≤ 7 → s.pc ≤ 253 → s.sp.toNat ≠ 0 →
    ∃ t u, exec (.call a) s = .next t ∧ exec .ret t = .next u ∧
      u.pc = s.pc + 2 ∧ u.sp = s.sp ∧ u.regs = s.regs

/-- JMP as R94 gives it, for every target, with its encoding and its only fault. Byte 0x54 is the
spec's decision D1 (notes/assumptions/2.md); that a bad operand faults is D4 (notes/assumptions/16.md). -/
def Obligations.JmpGoesToTheRegister : Prop :=
  ∀ (a : Byte) (s : State),
    (∀ b, decode 0x54#8 a b = .instr (.jmp a)) ∧ encode (.jmp a) = [0x54#8, a] ∧
    (∀ ra : Reg, a.toNat = ra.val →
      exec (.jmp a) s = .next { s with pc := (s.reg ra).toNat }) ∧
    (a.toNat > 7 → exec (.jmp a) s
      = .next (s.withRecord .invalidRegister (some 0x54#8) (.register .a a)))

/-- JEQ as R95 gives it, taken exactly when E = 1. Byte 0x55 is the spec's decision D1
(notes/assumptions/2.md); that the register is checked whether or not the branch is taken is D4
(notes/assumptions/16.md). -/
def Obligations.JeqJumpsWhenEqual : Prop :=
  ∀ (a : Byte) (s : State),
    (∀ b, decode 0x55#8 a b = .instr (.jeq a)) ∧ encode (.jeq a) = [0x55#8, a] ∧
    (∀ ra : Reg, a.toNat = ra.val → s.flags.e = true →
      exec (.jeq a) s = .next { s with pc := (s.reg ra).toNat }) ∧
    (a.toNat ≤ 7 → s.flags.e = false → exec (.jeq a) s = .next { s with pc := s.pc + 2 }) ∧
    (a.toNat > 7 → exec (.jeq a) s
      = .next (s.withRecord .invalidRegister (some 0x55#8) (.register .a a)))

/-- JNE as R96 gives it, taken exactly when E = 0. Byte 0x56 is the spec's decision D1
(notes/assumptions/2.md); that the register is checked whether or not the branch is taken is D4
(notes/assumptions/16.md). -/
def Obligations.JneJumpsWhenNotEqual : Prop :=
  ∀ (a : Byte) (s : State),
    (∀ b, decode 0x56#8 a b = .instr (.jne a)) ∧ encode (.jne a) = [0x56#8, a] ∧
    (∀ ra : Reg, a.toNat = ra.val → s.flags.e = false →
      exec (.jne a) s = .next { s with pc := (s.reg ra).toNat }) ∧
    (a.toNat ≤ 7 → s.flags.e = true → exec (.jne a) s = .next { s with pc := s.pc + 2 }) ∧
    (a.toNat > 7 → exec (.jne a) s
      = .next (s.withRecord .invalidRegister (some 0x56#8) (.register .a a)))

/-- R94's corner case and R78: a JMP whose register holds its own address loops for ever, and no step
of it changes anything. -/
def Obligations.JumpToItselfRunsForever : Prop :=
  ∀ (a : Byte) (ra : Reg) (s : State), s.AtInstr (.jmp a) → a.toNat = ra.val →
    (s.reg ra).toNat = s.pc → (∀ n, run n s = s) ∧ Diverges s

/-- The table of R27: the pc after a step of each instruction; the engine adds nothing of its own, and
a fault leaves the pc. Two of its rows rest on the spec's decisions: that HLT leaves the pc is D14
(90_conflicts.md C2, notes/assumptions/22.md), and that CALL's target is read after the push, which
matters for R7, is D9 (notes/assumptions/18.md). -/
def Obligations.NextPcOfEachInstruction : Prop :=
  ∀ s t : State, s.status = .running → step s = .next t →
    (t.status = .faulted → t.pc = s.pc) ∧
    (t.status ≠ .faulted →
      (s.AtInstr .hlt → t.pc = s.pc) ∧
      (s.AtInstr .ret → t.pc = (s.memRead s.sp).toNat) ∧
      (∀ (a b : Byte) (i : Instr), s.AtInstr i →
        i = .ldi a b ∨ i = .add a b ∨ i = .mul a b ∨ i = .cmp a b → t.pc = s.pc + 3) ∧
      (∀ (a : Byte) (i : Instr), s.AtInstr i → i = .prn a ∨ i = .push a ∨ i = .pop a →
        t.pc = s.pc + 2) ∧
      (∀ (a : Byte) (ra : Reg), a.toNat = ra.val →
        (s.AtInstr (.call a) → t.pc = (t.reg ra).toNat ∧
          (t.memRead t.sp).toNat = s.pc + 2) ∧
        (s.AtInstr (.jmp a) → t.pc = (s.reg ra).toNat) ∧
        (s.AtInstr (.jeq a) → t.pc = if s.flags.e then (s.reg ra).toNat else s.pc + 2) ∧
        (s.AtInstr (.jne a) → t.pc = if s.flags.e then s.pc + 2 else (s.reg ra).toNat)))

/-! ## Halt (45_halt.md) -/

/-- HLT as R98 gives it, with its encoding; the status becomes Halted, all else stays. That the pc
stays too is the spec's decision D14 (90_conflicts.md C2, notes/assumptions/22.md). -/
def Obligations.HltHaltsInPlace : Prop :=
  ∀ s : State,
    (∀ a b, decode 0x01#8 a b = .instr .hlt) ∧ encode .hlt = [0x01#8] ∧
    exec .hlt s = .next { s with halt := true } ∧
    (s.fault = none → ({ s with halt := true } : State).status = .halted)

/-- R30: only HLT sets the halt flag; nothing but reset clears it; while it is set, no fetch happens
(no step is defined). -/
def Obligations.OnlyHltSetsTheHaltFlag : Prop :=
  (∀ s t : State, step s = .next t → s.halt = false → (t.halt = true ↔ s.AtInstr .hlt)) ∧
  (∀ s t : State, s.halt = true → step s ≠ .next t) ∧
  (∀ (g : Vector Byte 7) (q : HostRequest) (s t : State), serve g q s = .next t →
    s.halt = true → ∃ image, q = .reset image ∧ t.halt = false)

/-! ## Frames: what an instruction leaves unchanged, whatever its operands -/

/-- The frame of ADD, MUL and LDI (R82, R83, R85): every register but `a`, FL, the halt flag, the
output and every byte of memory; the fault record too when the operands are registers. -/
def Obligations.RegisterWritersFrame : Prop :=
  ∀ (i : Instr) (a b : Byte) (s t : State), i = .add a b ∨ i = .mul a b ∨ i = .ldi a b →
    exec i s = .next t →
    (∀ r : Reg, r.val ≠ a.toNat → t.reg r = s.reg r) ∧ t.flags = s.flags ∧ t.halt = s.halt ∧
    t.out = s.out ∧ (∀ x : Addr, t.memRead x = s.memRead x) ∧ (i.wf = true → t.fault = s.fault)

/-- The frame of CMP, PRN, JMP, JEQ, JNE and HLT, which write no register and no memory: FL changes
only by CMP, the output only by PRN, the halt flag only by HLT. -/
def Obligations.NonStoringFormsFrame : Prop :=
  ∀ (i : Instr) (a b : Byte) (s t : State),
    i = .cmp a b ∨ i = .prn a ∨ i = .jmp a ∨ i = .jeq a ∨ i = .jne a ∨ i = .hlt →
    exec i s = .next t →
    (∀ r : Reg, t.reg r = s.reg r) ∧ (∀ x : Addr, t.memRead x = s.memRead x) ∧
    (i ≠ .cmp a b → t.flags = s.flags) ∧ (i ≠ .prn a → t.out = s.out) ∧
    (i ≠ .hlt → t.halt = s.halt) ∧ (i.wf = true → t.fault = s.fault)

/-- The frame of PUSH and CALL (R90, R92), which store one byte at SP - 1: every register but SP, FL,
the halt flag, the output, and every byte of memory but that one (every byte, where SP = 0 or the
operand is bad, and the instruction faults). -/
def Obligations.StackWritersFrame : Prop :=
  ∀ (i : Instr) (a : Byte) (s t : State), i = .push a ∨ i = .call a → exec i s = .next t →
    (∀ r : Reg, r ≠ 7 → t.reg r = s.reg r) ∧ t.flags = s.flags ∧ t.halt = s.halt ∧
    t.out = s.out ∧
    (∀ x : Addr, s.sp.toNat = 0 ∨ i.wf = false ∨ x.toNat ≠ s.sp.toNat - 1 →
      t.memRead x = s.memRead x) ∧
    (i.wf = true → s.sp.toNat ≠ 0 → t.fault = s.fault)

/-- The frame of POP and RET (R91, R93), which store nothing to memory: every register but POP's `a`
and SP, FL, the halt flag, the output, every byte of memory. -/
def Obligations.StackReadersFrame : Prop :=
  ∀ (i : Instr) (a : Byte) (s t : State), i = .pop a ∨ i = .ret → exec i s = .next t →
    (∀ r : Reg, r ≠ 7 → (i = .pop a → r.val ≠ a.toNat) → t.reg r = s.reg r) ∧
    t.flags = s.flags ∧ t.halt = s.halt ∧ t.out = s.out ∧
    (∀ x : Addr, t.memRead x = s.memRead x) ∧
    (t.fault = s.fault ∨ t = { s with fault := t.fault })

/-! ## Rules of the whole machine -/

/-- R29 (its writes): only CMP changes FL, and after a completed CMP exactly one flag is set. -/
def Obligations.OnlyCmpWritesFlags : Prop :=
  (∀ s t : State, step s = .next t → t.flags ≠ s.flags → ∃ a b, s.AtInstr (.cmp a b)) ∧
  (∀ (s t : State) (a b : Byte), s.AtInstr (.cmp a b) → step s = .next t → t.status = .running →
    ([t.flags.e, t.flags.l, t.flags.g].count true = 1))

/-- R29 (its reads): no instruction reads L or G. Two states that differ only in these flags step to
states that differ at most in them, and E is the same. -/
def Obligations.LessAndGreaterAreNeverRead : Prop :=
  ∀ (s t : State) (l g : Bool), step s = .next t →
    ∃ t' : State, step { s with flags := { s.flags with l := l, g := g } } = .next t' ∧
      t' = { t with flags := t'.flags } ∧ t'.flags.e = t.flags.e

/-- R29 (its reads): only JEQ and JNE read E. Any other instruction does the same whatever FL
holds. -/
def Obligations.OnlyJeqAndJneReadEqual : Prop :=
  ∀ (i : Instr) (s t : State) (f : Flags), (∀ a, i ≠ .jeq a ∧ i ≠ .jne a) → exec i s = .next t →
    ∃ t' : State, exec i { s with flags := f } = .next t' ∧ t' = { t with flags := t'.flags }

/-- R42 and R49: memory changes only by a PUSH or a CALL, and only the byte at SP - 1; and nothing
protects the bytes of the program. Whatever lies at SP - 1, the instruction's own bytes and those
fetched next included, a PUSH or a CALL of a register at SP not 0 stores there. What is stored for R7
follows D9 (notes/assumptions/18.md); SP above 0xF4 is D8 (notes/assumptions/17.md). -/
def Obligations.MemoryIsWrittenOnlyByPushAndCall : Prop :=
  (∀ (s t : State) (x : Addr), step s = .next t → t.memRead x ≠ s.memRead x →
    (∃ a, s.AtInstr (.push a) ∨ s.AtInstr (.call a)) ∧ s.sp.toNat ≠ 0 ∧
    x.toNat = s.sp.toNat - 1 ∧ t.sp = x) ∧
  (∀ (s : State) (a : Byte) (ra : Reg), a.toNat = ra.val → s.sp.toNat ≠ 0 →
    (s.AtInstr (.push a) → ∃ t, step s = .next t ∧
      t.memRead (s.sp - 1) = (if ra = 7 then s.sp - 1 else s.reg ra)) ∧
    (s.AtInstr (.call a) → ∃ t, step s = .next t ∧
      (t.memRead (s.sp - 1)).toNat = s.pc + 2))

/-- R21, R88, R89 and 90_conflicts.md C3, the spec's decision D8 (notes/assumptions/17.md): SP above
0xF4 is legal. Of the steps of a Running block with SP in 1..254, none but a POP into R7 raises a
stack fault. POP into R7 is the exception, since the SP it increments is the loaded byte (D9,
notes/assumptions/18.md). -/
def Obligations.StackFaultsOnlyAtTheMemoryBounds : Prop :=
  ∀ (s t : State) (r : FaultRecord), s.status = .running → step s = .next t → t.fault = some r →
    r.cause = .stackOutOfRange → (∀ a : Byte, a.toNat = 7 → ¬ s.AtInstr (.pop a)) →
    s.sp.toNat = 0 ∨ s.sp.toNat = 255

/-- R76's "at most one general register", as far as R24 and R91 let it hold: of two different registers
that a step changes, one is SP, the other is the operand, and the instruction is a POP. And that POP
does write both, as R91 and the vectors C2 and C7 say, where R76 counts one (notes/assumptions/14.md);
its increment at SP above 0xF4 is D8 (notes/assumptions/17.md). -/
def Obligations.OnlyPopWritesTwoRegisters : Prop :=
  (∀ (s t : State) (i : Instr) (r r' : Reg), s.AtInstr i → step s = .next t → r ≠ r' →
    t.reg r ≠ s.reg r → t.reg r' ≠ s.reg r' →
    ∃ a : Byte, i = .pop a ∧ ((a.toNat = r.val ∧ r' = 7) ∨ (r = 7 ∧ a.toNat = r'.val))) ∧
  (∀ (s : State) (a : Byte) (ra : Reg), s.AtInstr (.pop a) → a.toNat = ra.val → ra ≠ 7 →
    s.sp.toNat ≠ 255 →
    ∃ t, step s = .next t ∧ t.reg ra = s.memRead s.sp ∧ t.sp = s.sp + 1)
end

