-- ==== Sys2Proof/Laws/Memory.lean ====
section
/-! SUPPORT. The laws of memory: what a read after a write gives (20_memory.md R46), and that every
operation keeps the canonical form. -/

namespace Sys2Proof.Machine

theorem Memory.lookup_erase (m : Memory) (a b : Nat) :
    (m.erase a).lookup b = if a = b then Memory.unlisted else m.lookup b := by
  induction m with
  | nil => simp [Memory.erase, Memory.lookup]
  | cons c rest ih =>
    obtain ⟨k, v⟩ := c
    simp only [Memory.erase] at ih
    by_cases hk : k = a
    · subst hk
      simp only [Memory.erase, List.filter_cons, bne_self_eq_false, Bool.false_eq_true, if_false,
        ih, Memory.lookup]
      split <;> rfl
    · simp only [Memory.erase, List.filter_cons, bne_iff_ne, ne_eq, hk, not_false_eq_true,
        if_true, Memory.lookup, ih]
      grind

theorem Memory.lookup_insertCell (m : Memory) (a b : Nat) (v : Byte) (h : ∀ c ∈ m, c.1 ≠ a) :
    (m.insertCell a v).lookup b = if a = b then v else m.lookup b := by
  induction m with
  | nil => simp [Memory.insertCell, Memory.lookup]
  | cons c rest ih =>
    obtain ⟨k, w⟩ := c
    have hk : k ≠ a := h (k, w) (List.mem_cons_self ..)
    have hr := ih fun c hc => h c (List.mem_cons_of_mem _ hc)
    simp only [Memory.insertCell]
    split
    · simp only [Memory.lookup, hr]; grind
    · simp only [Memory.lookup]

theorem Memory.ne_of_mem_erase {m : Memory} {a : Nat} {c : Host.Cell} (h : c ∈ m.erase a) :
    c.1 ≠ a := by
  simpa using (List.mem_filter.mp h).2

/-- A store gives its key its byte, and every other key what it had. -/
theorem Memory.lookup_store (m : Memory) (a b : Nat) (v : Byte) :
    (m.store a v).lookup b = if a = b then v else m.lookup b := by
  unfold Memory.store
  split
  · rename_i hv; rw [Memory.lookup_erase, hv]
  · rw [Memory.lookup_insertCell _ _ _ _ fun _ => Memory.ne_of_mem_erase, Memory.lookup_erase]
    split <;> rfl

/-- A read returns the last byte written to the address, and a write leaves every other address
alone (R46). -/
theorem Memory.read_write (m : Memory) (a b : Addr) (v : Byte) :
    (m.write a v).read b = if b = a then v else m.read b := by
  simp only [Memory.read, Memory.write, Memory.lookup_store, ← BitVec.toNat_inj,
    eq_comm (a := a.toNat)]

@[simp] theorem Memory.read_write_self (m : Memory) (a : Addr) (v : Byte) :
    (m.write a v).read a = v := by simp [Memory.read_write]

theorem Memory.read_write_of_ne (m : Memory) {a b : Addr} (v : Byte) (h : b ≠ a) :
    (m.write a v).read b = m.read b := by simp [Memory.read_write, h]

theorem Memory.wf_nil : Memory.wf [] := by simp [Memory.wf]

theorem Memory.wf_erase {m : Memory} (h : m.wf) (a : Nat) : (m.erase a).wf :=
  ⟨h.1.filter _, fun c hc => h.2 c (List.mem_filter.mp hc).1⟩

theorem Memory.mem_insertCell {m : Memory} {a : Nat} {v : Byte} {c : Host.Cell}
    (h : c ∈ m.insertCell a v) : c = (a, v) ∨ c ∈ m := by
  induction m with
  | nil => simpa [Memory.insertCell] using h
  | cons d rest ih =>
    simp only [Memory.insertCell] at h
    split at h
    · rcases List.mem_cons.mp h with rfl | h
      · exact .inr (List.mem_cons_self ..)
      · exact (ih h).imp id (List.mem_cons_of_mem _)
    · exact List.mem_cons.mp h

theorem Memory.wf_insertCell {m : Memory} {a : Nat} {v : Byte} (h : m.wf)
    (hm : ∀ c ∈ m, c.1 ≠ a) (ha : a < Config.memSize) (hv : v ≠ Memory.unlisted) :
    (m.insertCell a v).wf := by
  refine ⟨?_, fun c hc => ?_⟩
  · induction m with
    | nil => exact List.pairwise_singleton _ _
    | cons d rest ih =>
      have hd := List.pairwise_cons.mp h.1
      have hne := hm d (List.mem_cons_self ..)
      simp only [Memory.insertCell]
      split
      · rename_i hlt
        refine List.pairwise_cons.mpr ⟨fun c hc => ?_,
          ih ⟨hd.2, fun c hc => h.2 c (List.mem_cons_of_mem _ hc)⟩
            fun c hc => hm c (List.mem_cons_of_mem _ hc)⟩
        rcases Memory.mem_insertCell hc with rfl | hc
        · exact hlt
        · exact hd.1 c hc
      · rename_i hlt
        have hlt : a < d.1 := by omega
        refine List.pairwise_cons.mpr ⟨fun c hc => ?_, h.1⟩
        rcases List.mem_cons.mp hc with rfl | hc
        · exact hlt
        · exact hlt.trans (hd.1 c hc)
  · rcases Memory.mem_insertCell hc with rfl | hc
    · exact ⟨ha, hv⟩
    · exact h.2 c hc

/-- A write keeps the canonical form. -/
theorem Memory.wf_write {m : Memory} (h : m.wf) (a : Addr) (v : Byte) : (m.write a v).wf := by
  unfold Memory.write Memory.store
  split
  · exact Memory.wf_erase h _
  · rename_i hv
    exact Memory.wf_insertCell (Memory.wf_erase h _) (fun _ => Memory.ne_of_mem_erase) a.isLt hv

/-- A loaded image reads back at its addresses, and every other address reads as before (R115). -/
theorem Memory.read_load (m : Memory) (image : List Byte) (k : Nat) (a : Addr)
    (h : k + image.length ≤ 256) :
    (m.load k image).read a = if k ≤ a.toNat ∧ a.toNat < k + image.length
      then image.getD (a.toNat - k) 0 else m.read a := by
  induction image generalizing m k with
  | nil => simp [Memory.load]
  | cons v vs ih =>
    simp only [List.length_cons] at h
    simp only [Memory.load, ih _ (k + 1) (by omega), List.length_cons]
    have hk : (BitVec.ofNat 8 k).toNat = k := by rw [BitVec.toNat_ofNat]; omega
    by_cases ha : a.toNat = k
    · rw [if_neg (by omega), if_pos (by omega)]
      obtain rfl : a = BitVec.ofNat 8 k := by apply BitVec.eq_of_toNat_eq; omega
      simp [ha]
    · have hne : a ≠ BitVec.ofNat 8 k := fun h => ha (by rw [h, hk])
      by_cases h2 : k + 1 ≤ a.toNat ∧ a.toNat < k + 1 + vs.length
      · rw [if_pos h2, if_pos (by omega), (by omega : a.toNat - k = (a.toNat - (k + 1)) + 1)]
        rfl
      · rw [if_neg h2, if_neg (by omega)]
        exact Memory.read_write_of_ne _ _ hne

/-- Loading an image keeps the canonical form. -/
theorem Memory.wf_load {m : Memory} (h : m.wf) (a : Nat) (image : List Byte) :
    (m.load a image).wf := by
  induction image generalizing m a with
  | nil => exact h
  | cons v vs ih => exact ih (Memory.wf_write h _ _) (a + 1)

end Sys2Proof.Machine
end

