-- ==== Sys2Proof/Laws/State.lean ====
section
/-! SUPPORT. One lemma per field and update of State, so that no later proof unfolds a record
update, and what the accessors read after an update. -/

namespace Sys2Proof.Machine

variable (s : State) (i j : Reg) (v : Byte) (a b : Addr) (n : Nat) (f : Flags)
  (c : FaultCause) (o : Option Byte) (d : FaultInfo)

@[simp] theorem State.setReg_regs : (s.setReg i v).regs = s.regs.set i v := rfl
@[simp] theorem State.setReg_pc : (s.setReg i v).pc = s.pc := rfl
@[simp] theorem State.setReg_flags : (s.setReg i v).flags = s.flags := rfl
@[simp] theorem State.setReg_halt : (s.setReg i v).halt = s.halt := rfl
@[simp] theorem State.setReg_fault : (s.setReg i v).fault = s.fault := rfl
@[simp] theorem State.setReg_mem : (s.setReg i v).mem = s.mem := rfl
@[simp] theorem State.setReg_out : (s.setReg i v).out = s.out := rfl

@[simp] theorem State.setSp_regs : (s.setSp v).regs = s.regs.set 7 v := rfl
@[simp] theorem State.setSp_pc : (s.setSp v).pc = s.pc := rfl
@[simp] theorem State.setSp_flags : (s.setSp v).flags = s.flags := rfl
@[simp] theorem State.setSp_halt : (s.setSp v).halt = s.halt := rfl
@[simp] theorem State.setSp_fault : (s.setSp v).fault = s.fault := rfl
@[simp] theorem State.setSp_mem : (s.setSp v).mem = s.mem := rfl
@[simp] theorem State.setSp_out : (s.setSp v).out = s.out := rfl

@[simp] theorem State.loadTop_regs : (s.loadTop i).regs = s.regs.set i (s.memRead s.sp) := rfl
@[simp] theorem State.loadTop_pc : (s.loadTop i).pc = s.pc := rfl
@[simp] theorem State.loadTop_flags : (s.loadTop i).flags = s.flags := rfl
@[simp] theorem State.loadTop_halt : (s.loadTop i).halt = s.halt := rfl
@[simp] theorem State.loadTop_fault : (s.loadTop i).fault = s.fault := rfl
@[simp] theorem State.loadTop_mem : (s.loadTop i).mem = s.mem := rfl
@[simp] theorem State.loadTop_out : (s.loadTop i).out = s.out := rfl

@[simp] theorem State.setPc_regs : (s.setPc n).regs = s.regs := rfl
@[simp] theorem State.setPc_pc : (s.setPc n).pc = n := rfl
@[simp] theorem State.setPc_flags : (s.setPc n).flags = s.flags := rfl
@[simp] theorem State.setPc_halt : (s.setPc n).halt = s.halt := rfl
@[simp] theorem State.setPc_fault : (s.setPc n).fault = s.fault := rfl
@[simp] theorem State.setPc_mem : (s.setPc n).mem = s.mem := rfl
@[simp] theorem State.setPc_out : (s.setPc n).out = s.out := rfl

@[simp] theorem State.advance_regs : (s.advance n).regs = s.regs := rfl
@[simp] theorem State.advance_pc : (s.advance n).pc = s.pc + n := rfl
@[simp] theorem State.advance_flags : (s.advance n).flags = s.flags := rfl
@[simp] theorem State.advance_halt : (s.advance n).halt = s.halt := rfl
@[simp] theorem State.advance_fault : (s.advance n).fault = s.fault := rfl
@[simp] theorem State.advance_mem : (s.advance n).mem = s.mem := rfl
@[simp] theorem State.advance_out : (s.advance n).out = s.out := rfl

@[simp] theorem State.memWrite_regs : (s.memWrite a v).regs = s.regs := rfl
@[simp] theorem State.memWrite_pc : (s.memWrite a v).pc = s.pc := rfl
@[simp] theorem State.memWrite_flags : (s.memWrite a v).flags = s.flags := rfl
@[simp] theorem State.memWrite_halt : (s.memWrite a v).halt = s.halt := rfl
@[simp] theorem State.memWrite_fault : (s.memWrite a v).fault = s.fault := rfl
@[simp] theorem State.memWrite_mem : (s.memWrite a v).mem = s.mem.write a v := rfl
@[simp] theorem State.memWrite_out : (s.memWrite a v).out = s.out := rfl

@[simp] theorem State.emit_regs : (s.emit v).regs = s.regs := rfl
@[simp] theorem State.emit_pc : (s.emit v).pc = s.pc := rfl
@[simp] theorem State.emit_flags : (s.emit v).flags = s.flags := rfl
@[simp] theorem State.emit_halt : (s.emit v).halt = s.halt := rfl
@[simp] theorem State.emit_fault : (s.emit v).fault = s.fault := rfl
@[simp] theorem State.emit_mem : (s.emit v).mem = s.mem := rfl
@[simp] theorem State.emit_out : (s.emit v).out = s.out ++ [v] := rfl

@[simp] theorem State.setFlags_regs : (s.setFlags f).regs = s.regs := rfl
@[simp] theorem State.setFlags_pc : (s.setFlags f).pc = s.pc := rfl
@[simp] theorem State.setFlags_flags : (s.setFlags f).flags = f := rfl
@[simp] theorem State.setFlags_halt : (s.setFlags f).halt = s.halt := rfl
@[simp] theorem State.setFlags_fault : (s.setFlags f).fault = s.fault := rfl
@[simp] theorem State.setFlags_mem : (s.setFlags f).mem = s.mem := rfl
@[simp] theorem State.setFlags_out : (s.setFlags f).out = s.out := rfl

@[simp] theorem State.setHalt_regs : s.setHalt.regs = s.regs := rfl
@[simp] theorem State.setHalt_pc : s.setHalt.pc = s.pc := rfl
@[simp] theorem State.setHalt_flags : s.setHalt.flags = s.flags := rfl
@[simp] theorem State.setHalt_halt : s.setHalt.halt = true := rfl
@[simp] theorem State.setHalt_fault : s.setHalt.fault = s.fault := rfl
@[simp] theorem State.setHalt_mem : s.setHalt.mem = s.mem := rfl
@[simp] theorem State.setHalt_out : s.setHalt.out = s.out := rfl

@[simp] theorem State.takeFault_regs : (s.takeFault c o d).regs = s.regs := rfl
@[simp] theorem State.takeFault_pc : (s.takeFault c o d).pc = s.pc := rfl
@[simp] theorem State.takeFault_flags : (s.takeFault c o d).flags = s.flags := rfl
@[simp] theorem State.takeFault_halt : (s.takeFault c o d).halt = s.halt := rfl
@[simp] theorem State.takeFault_fault :
    (s.takeFault c o d).fault = some { cause := c, fpc := s.pc, opcode := o, info := d } := rfl
@[simp] theorem State.takeFault_mem : (s.takeFault c o d).mem = s.mem := rfl
@[simp] theorem State.takeFault_out : (s.takeFault c o d).out = s.out := rfl

/-- A register reads the byte just written to it, and any other register what it held; no register
is hard-wired (10_state.md R22). -/
theorem State.reg_setReg : (s.setReg i v).reg j = if j = i then v else s.reg j := by
  simp only [State.reg, State.setReg, Fin.getElem_fin, Vector.getElem_set, ← Fin.val_inj,
    eq_comm (a := j.val)]

@[simp] theorem State.reg_setReg_self : (s.setReg i v).reg i = v := by simp [State.reg_setReg]

theorem State.reg_setReg_of_ne {i j : Reg} (h : j ≠ i) : (s.setReg i v).reg j = s.reg j := by
  simp [State.reg_setReg, h]

theorem State.reg_setSp : (s.setSp v).reg j = if j = 7 then v else s.reg j := State.reg_setReg ..

@[simp] theorem State.sp_setSp : (s.setSp v).sp = v := State.reg_setReg_self ..

/-- A state with the same registers reads the same bytes from them. -/
theorem State.reg_congr {s t : State} (h : t.regs = s.regs) (i : Reg) : t.reg i = s.reg i := by
  simp [State.reg, h]

/-- A state with the same memory reads the same bytes from it. -/
theorem State.memRead_congr {s t : State} (h : t.mem = s.mem) (a : Addr) :
    t.memRead a = s.memRead a := by
  simp [State.memRead, h]

theorem State.memRead_memWrite :
    (s.memWrite a v).memRead b = if b = a then v else s.memRead b := Memory.read_write ..

/-- The status is Running exactly when the halt flag is clear and no fault was raised (R31). -/
theorem State.status_running_iff : s.status = .running ↔ s.halt = false ∧ s.fault = none := by
  unfold State.status
  cases hf : s.fault <;> cases hh : s.halt <;> simp

/-- The status is Faulted exactly when a fault was raised (R31). -/
theorem State.status_faulted_iff : s.status = .faulted ↔ s.fault.isSome = true := by
  unfold State.status
  cases hf : s.fault <;> cases hh : s.halt <;> simp

/-- The status is Halted exactly when the halt flag is set and no fault was raised (R31). -/
theorem State.status_halted_iff : s.status = .halted ↔ s.halt = true ∧ s.fault = none := by
  unfold State.status
  cases hf : s.fault <;> cases hh : s.halt <;> simp

end Sys2Proof.Machine
end

