-- ==== Sys2Proof/Laws/Ops.lean ====
section
/-! SUPPORT. One specification lemma for each shared operation: everything it can do, said once. -/

namespace Sys2Proof.Machine

/-- An operand byte selects a register exactly when the whole byte is its index (30_encoding.md
R61). -/
theorem regIndex_eq_some {v : Byte} {r : Reg} : regIndex v = some r ↔ v.toNat = r.val := by
  unfold regIndex
  split
  · simp [Fin.ext_iff]
  · rename_i h
    have hr : r.val < 8 := r.isLt
    simp only [Config.nreg] at h
    simp only [reduceCtorEq, false_iff]
    omega

/-- An operand byte of 8..255 selects nothing (R61). -/
theorem regIndex_eq_none {v : Byte} : regIndex v = none ↔ 7 < v.toNat := by
  unfold regIndex
  split
  · rename_i h; simp only [Config.nreg] at h; simp only [reduceCtorEq, false_iff]; omega
  · rename_i h; simp only [Config.nreg] at h; simp only [true_iff]; omega

/-- Every register has an operand byte that selects it. -/
@[simp] theorem regIndex_regByte (r : Reg) : regIndex (regByte r) = some r := by
  have hr : r.val < 8 := r.isLt
  rw [regIndex_eq_some, regByte, BitVec.toNat_ofNat]
  omega

/-- A good operand byte lets the instruction go on with its register (40_engine.md R73). -/
theorem withReg_of_eq {op : Op} {slot : OperandSlot} {v : Byte} {r : Reg} (h : v.toNat = r.val)
    (s : State) (k : Reg → Result) : withReg op slot v s k = k r := by
  simp [withReg, regIndex_eq_some.mpr h]

/-- A bad operand byte raises INVALID_REGISTER (R73). -/
theorem withReg_of_gt {op : Op} {slot : OperandSlot} {v : Byte} (h : 7 < v.toNat)
    (s : State) (k : Reg → Result) :
    withReg op slot v s k
      = .next (s.takeFault .invalidRegister (some op.opcode) (.register slot v)) := by
  simp [withReg, regIndex_eq_none.mpr h, raise]

/-- What the operand check can do: go on with the byte's register, or raise INVALID_REGISTER. -/
theorem withReg_cases (op : Op) (slot : OperandSlot) (v : Byte) (s : State) (k : Reg → Result) :
    (∃ r : Reg, v.toNat = r.val ∧ withReg op slot v s k = k r) ∨
    (7 < v.toNat ∧ withReg op slot v s k
      = .next (s.takeFault .invalidRegister (some op.opcode) (.register slot v))) := by
  by_cases h : 7 < v.toNat
  · exact .inr ⟨h, withReg_of_gt h s k⟩
  · have hv : v.toNat < 8 := by omega
    exact .inl ⟨⟨v.toNat, hv⟩, rfl, withReg_of_eq rfl s k⟩

/-- `SP <- SP - 1` (43_stack.md R88): none exactly at SP = 0. -/
theorem State.spDec_eq (s : State) :
    s.spDec = if s.sp.toNat = 0 then none else some (s.setSp (s.sp - 1)) := by
  unfold State.spDec
  split
  · rfl
  · congr 2
    have := s.sp.isLt
    apply BitVec.eq_of_toNat_eq
    have h1 : (1 : Byte).toNat = 1 := rfl
    rw [BitVec.toNat_ofNat, BitVec.toNat_sub, h1]
    omega

/-- `SP <- SP + 1` (R89): none exactly at SP = 255. -/
theorem State.spInc_eq (s : State) :
    s.spInc = if s.sp.toNat = 255 then none else some (s.setSp (s.sp + 1)) := by
  unfold State.spInc
  split
  · rename_i h; simp only [Config.memSize] at h; simp [h]
  · rename_i h
    simp only [Config.memSize] at h
    have := s.sp.isLt
    rw [if_neg (by omega)]
    congr 2

/-- `push(v)` (R88). -/
theorem State.push_eq (s : State) (v : Byte) :
    s.push v = if s.sp.toNat = 0 then none
      else some ((s.setSp (s.sp - 1)).memWrite (s.sp - 1) v) := by
  unfold State.push
  rw [State.spDec_eq]
  by_cases h : s.sp.toNat = 0 <;> simp [h]

/-- `pop()` (R89). -/
theorem State.pop_eq (s : State) :
    s.pop = if s.sp.toNat = 255 then none
      else some (s.memRead s.sp, s.setSp (s.sp + 1)) := by
  unfold State.pop
  rw [State.spInc_eq]
  by_cases h : s.sp.toNat = 255 <;> simp [h]

end Sys2Proof.Machine
end

