-- ==== Sys2Proof/Laws/Engine.lean ====
section
/-! SUPPORT. Decoding, fetching and one step, each said once (40_engine.md R70 to R77). -/

namespace Sys2Proof

/-- The map reads an operation back from its own byte, and from no other (30_encoding.md R57). -/
theorem decodeOp_eq_some {ir : Byte} {op : Op} : decodeOp ir = some op ↔ ir = op.opcode := by
  constructor
  · intro h
    have := List.find?_some h
    exact (beq_iff_eq.mp this).symm
  · rintro rfl
    cases op <;> rfl

/-- An instruction decodes from its own opcode byte only. -/
theorem opcode_of_decode {ir a b : Byte} {i : Instr} (h : decode ir a b = .instr i) :
    ir = i.op.opcode := by
  unfold decode at h
  split at h
  · cases h
  all_goals
    rename_i ho
    cases h
    exact decodeOp_eq_some.mp ho

/-- The verdict "unknown opcode" names the byte that was decoded. -/
theorem eq_of_decode_unknown {ir a b x : Byte} (h : decode ir a b = .unknownOpcode x) : x = ir := by
  unfold decode at h
  split at h <;> simp_all

/-- The operands of a decoded instruction are the bytes after the opcode (R60). -/
theorem operands_of_decode {ir a b : Byte} {i : Instr} (h : decode ir a b = .instr i) :
    (∀ x, i.operands.head? = some x → x = a) ∧ (∀ x y, i.operands = [x, y] → x = a ∧ y = b) := by
  have hi := opcode_of_decode h
  rw [hi] at h
  cases i <;> simp_all [decode, decodeOp, Op.all, Instr.op, Op.opcode, Instr.operands]

namespace Machine

/-- The fetch inside memory, and the fetch whose window leaves it (R71). -/
theorem fetch_eq (s : State) :
    fetch s = if 253 < s.pc then none
      else some { ir := s.opcodeAt, a := s.firstAt, b := s.secondAt } := by
  unfold fetch
  simp only [windowLeavesMemory, Config.fetchWindow, Config.memSize]
  split <;> split <;> first | rfl | omega

/-- A window placed at a pc inside memory is what the next fetch reads. -/
theorem fetch_placeWindow {s : State} (hp : s.pc ≤ 253) (w : Window) :
    fetch (placeWindow s w) = some w := by
  have h1 : BitVec.ofNat 8 s.pc ≠ BitVec.ofNat 8 (s.pc + 1) := by
    intro h; have := congrArg BitVec.toNat h; simp only [BitVec.toNat_ofNat] at this; omega
  have h2 : BitVec.ofNat 8 s.pc ≠ BitVec.ofNat 8 (s.pc + 2) := by
    intro h; have := congrArg BitVec.toNat h; simp only [BitVec.toNat_ofNat] at this; omega
  have h3 : BitVec.ofNat 8 (s.pc + 1) ≠ BitVec.ofNat 8 (s.pc + 2) := by
    intro h; have := congrArg BitVec.toNat h; simp only [BitVec.toNat_ofNat] at this; omega
  have hout : ¬ windowLeavesMemory s := by
    simp only [windowLeavesMemory, Config.fetchWindow, Config.memSize]; omega
  simp only [placeWindow, if_neg hout, fetch, State.memWrite_pc, State.memRead_memWrite, h1, h2, h3,
    if_true, if_false]
  exact if_neg hout

/-- A step of a Running block whose window leaves memory (R71). -/
theorem step_of_window_out {s : State} (hr : s.status = .running) (hp : 253 < s.pc) :
    step s = .next (s.takeFault .fetchOutOfRange none .noDetail) := by
  simp [step, hr, runningStep, fetch_eq, hp, raise]

/-- A step of a Running block on a byte outside the opcode map (R72). -/
theorem step_of_unknown {s : State} {x : Byte} (hr : s.status = .running) (hp : s.pc ≤ 253)
    (hd : decode s.opcodeAt s.firstAt s.secondAt = .unknownOpcode x) :
    step s = .next (s.takeFault .unknownOpcode (some s.opcodeAt) .noDetail) := by
  have := eq_of_decode_unknown hd
  simp [step, hr, runningStep, fetch_eq, Nat.not_lt.mpr hp, decodeAndRun, hd, raise, this]

/-- What a step that answers a next state can be: a fetch fault, an unknown opcode, or the rule of
the instruction at pc (R75). -/
theorem step_cases {s t : State} (h : step s = .next t) :
    s.status = .running ∧
    ((253 < s.pc ∧ t = s.takeFault .fetchOutOfRange none .noDetail) ∨
     (s.pc ≤ 253 ∧ decode s.opcodeAt s.firstAt s.secondAt = .unknownOpcode s.opcodeAt ∧
       t = s.takeFault .unknownOpcode (some s.opcodeAt) .noDetail) ∨
     ∃ i, s.AtInstr i ∧ exec i s = .next t) := by
  have hr : s.status = .running := by
    unfold step at h
    split at h
    · assumption
    · cases h
    · cases h
  refine ⟨hr, ?_⟩
  by_cases hp : 253 < s.pc
  · rw [step_of_window_out hr hp] at h
    cases h
    exact .inl ⟨hp, rfl⟩
  · have hp := Nat.not_lt.mp hp
    refine .inr ?_
    cases hd : decode s.opcodeAt s.firstAt s.secondAt with
    | unknownOpcode x =>
      have hx := eq_of_decode_unknown hd
      rw [step_of_unknown hr hp hd] at h
      cases h
      exact .inl ⟨hp, hx ▸ rfl, rfl⟩
    | instr i =>
      refine .inr ⟨i, ⟨hr, hp, hd⟩, ?_⟩
      simpa [step, hr, runningStep, fetch_eq, Nat.not_lt.mpr hp, decodeAndRun, hd] using h

end Machine

end Sys2Proof
end

