-- ==== Sys2Proof/Laws/Exec.lean ====
section
/-! SUPPORT. What the rule of any instruction can do, said once, for the whole-machine claims
(40_engine.md R76; 60_exceptions.md R101, R103). -/

namespace Sys2Proof.Machine

/-- Why `exec` faults on the instruction `i`, with the cause and the info it records (R101). -/
inductive FaultReason (i : Instr) (s : State) : FaultCause → FaultInfo → Prop where
  /-- Operand `a` is no register (R73). -/
  | badA (a : Byte) (hi : i.operands.head? = some a) (ha : 7 < a.toNat) :
      FaultReason i s .invalidRegister (.register .a a)
  /-- Operand `b` of an F2R instruction is no register, and `a` is one (R73, R104). -/
  | badB (a b : Byte) (hi : i = .add a b ∨ i = .mul a b ∨ i = .cmp a b) (ha : a.toNat ≤ 7)
      (hb : 7 < b.toNat) : FaultReason i s .invalidRegister (.register .b b)
  /-- PUSH or CALL at SP = 0 (R88). -/
  | pushAtZero (a : Byte) (hi : i = .push a ∨ i = .call a) (ha : a.toNat ≤ 7)
      (hs : s.sp.toNat = 0) : FaultReason i s .stackOutOfRange (.stack s.sp .push)
  /-- RET at SP = 255 (R89). -/
  | retAtTop (hi : i = .ret) (hs : s.sp.toNat = 255) :
      FaultReason i s .stackOutOfRange (.stack s.sp .pop)
  /-- POP where the SP to be incremented, which for R7 is the loaded byte, is 255 (R91). -/
  | popAtTop (a : Byte) (hi : i = .pop a) (ha : a.toNat ≤ 7)
      (hs : (if a.toNat = 7 then s.memRead s.sp else s.sp).toNat = 255) :
      FaultReason i s .stackOutOfRange
        (.stack (if a.toNat = 7 then s.memRead s.sp else s.sp) .pop)

/-- A fault that `exec` takes on `i`: the record names the pc, the opcode of `i` and a reason, and
nothing else changes. -/
def TakesFault (i : Instr) (s t : State) : Prop :=
  ∃ cause info, FaultReason i s cause info ∧ t = s.takeFault cause (some i.op.opcode) info

/-- What a completed instruction writes, for every instruction at once: no record; the halt flag
only by HLT; FL only as a comparison's result by CMP; at most the byte at SP - 1, by PUSH or CALL;
at most one byte of output, a register's, by PRN; no register but those R24 says it writes; and a pc
that advances by at most 3 or is a byte. -/
structure Completes (i : Instr) (s t : State) : Prop where
  wf    : i.wf = true
  fault : t.fault = s.fault
  halt  : (i = .hlt ∧ t = s.setHalt) ∨ (i ≠ .hlt ∧ t.halt = s.halt)
  flags : t.flags = s.flags ∨ ∃ a b x y, i = .cmp a b ∧ t.flags = compareFlags x y
  mem   : t.mem = s.mem ∨ ∃ v, s.sp.toNat ≠ 0 ∧ t.mem = s.mem.write (s.sp - 1) v ∧
    t.sp = s.sp - 1 ∧ ∃ a, i = .push a ∨ i = .call a
  out   : t.out = s.out ∨
    ∃ a, ∃ r : Reg, i = .prn a ∧ a.toNat = r.val ∧ t.out = s.out ++ [s.reg r]
  regs  : ∀ r : Reg, writesReg i r = false → t.reg r = s.reg r
  pc    : t.pc ≤ s.pc + 3 ∨ t.pc ≤ 255

variable {i : Instr} {s t : State}

theorem byte_le (v : Byte) : v.toNat ≤ 255 := by have := v.isLt; omega

theorem reg_le {v : Byte} {r : Reg} (h : v.toNat = r.val) : v.toNat ≤ 7 := by
  have : r.val < 8 := r.isLt
  omega

theorem isRegByte_of_eq {v : Byte} {r : Reg} (h : v.toNat = r.val) : isRegByte v = true :=
  decide_eq_true (Nat.lt_succ_of_le (reg_le h))

/-- A register that is not the operand. -/
theorem ne_operand {v : Byte} {r d : Reg} (hr : v.toNat = r.val) (h : (v.toNat == d.val) = false) :
    d ≠ r := by
  rintro rfl
  simp [hr] at h

/-- The check of operand `a`: its own fault, or what the continuation does. -/
theorem withRegA_next {a : Byte} {k : Reg → Result} (hi : i.operands.head? = some a)
    (h : withReg i.op .a a s k = .next t) :
    TakesFault i s t ∨ ∃ r : Reg, a.toNat = r.val ∧ k r = .next t := by
  rcases withReg_cases i.op .a a s k with ⟨r, hv, hk⟩ | ⟨hv, hf⟩
  · exact .inr ⟨r, hv, hk ▸ h⟩
  · rw [hf] at h
    cases h
    exact .inl ⟨_, _, .badA a hi hv, rfl⟩

/-- The check of operand `b` of an F2R instruction, after that of `a`. -/
theorem withRegB_next {a b : Byte} {k : Reg → Result} (hi : i = .add a b ∨ i = .mul a b ∨ i = .cmp a b)
    (ha : a.toNat ≤ 7) (h : withReg i.op .b b s k = .next t) :
    TakesFault i s t ∨ ∃ r : Reg, b.toNat = r.val ∧ k r = .next t := by
  rcases withReg_cases i.op .b b s k with ⟨r, hv, hk⟩ | ⟨hv, hf⟩
  · exact .inr ⟨r, hv, hk ▸ h⟩
  · rw [hf] at h
    cases h
    exact .inl ⟨_, _, .badB a b hi ha hv, rfl⟩

/-- A taken or untaken jump completes. -/
theorem branch_completes {taken : Bool} {r : Reg} (hw : i.wf = true) (hi : i ≠ .hlt)
    (h : branch taken r s = .next t) : Completes i s t := by
  unfold branch at h
  split at h <;> cases h
  · exact ⟨hw, rfl, .inr ⟨hi, rfl⟩, .inl rfl, .inl rfl, .inl rfl, fun _ _ => rfl,
      .inr (byte_le _)⟩
  · exact ⟨hw, rfl, .inr ⟨hi, rfl⟩, .inl rfl, .inl rfl, .inl rfl, fun _ _ => rfl,
      .inl (by simp)⟩

/-- SP as it is after a POP loaded register `r`: the loaded byte when that is R7 (R91). -/
theorem sp_after_load {a : Byte} {r : Reg} (h : a.toNat = r.val) (s : State) :
    (s.loadTop r).sp = if a.toNat = 7 then s.memRead s.sp else s.sp := by
  have h7 : ((7 : Reg) = r) ↔ a.toNat = 7 := by
    rw [h, Fin.ext_iff]
    exact eq_comm
  simp only [State.loadTop, State.sp, Config.spIndex, State.reg_setReg, h7]

/-- Every instruction takes one of its faults, or completes. -/
theorem exec_cases (h : exec i s = .next t) : TakesFault i s t ∨ Completes i s t := by
  cases i with
  | hlt =>
    cases h
    exact .inr ⟨rfl, rfl, .inl ⟨rfl, rfl⟩, .inl rfl, .inl rfl, .inl rfl, fun _ _ => rfl,
      .inl (by simp)⟩
  | ret =>
    simp only [exec, execRet, State.pop_eq] at h
    by_cases hs : s.sp.toNat = 255
    · simp only [hs, if_true] at h
      cases h
      exact .inl ⟨_, _, .retAtTop rfl hs, rfl⟩
    · simp only [hs, if_false] at h
      cases h
      exact .inr ⟨rfl, rfl, .inr ⟨nofun, rfl⟩, .inl rfl, .inl rfl, .inl rfl,
        fun _ h => State.reg_setReg_of_ne _ _ (ne_of_beq_false h), .inr (byte_le _)⟩
  | push a =>
    refine (withRegA_next (i := .push a) rfl h).elim .inl fun ⟨r, hr, hk⟩ => ?_
    simp only [State.spDec_eq] at hk
    by_cases hs : s.sp.toNat = 0
    · simp only [hs, if_true] at hk
      cases hk
      exact .inl ⟨_, _, .pushAtZero a (.inl rfl) (reg_le hr) hs, rfl⟩
    · simp only [hs, if_false] at hk
      cases hk
      exact .inr ⟨isRegByte_of_eq hr, rfl, .inr ⟨nofun, rfl⟩, .inl rfl,
        .inr ⟨_, hs, by simp; rfl, State.sp_setSp .., a, .inl rfl⟩, .inl rfl,
        fun _ h => State.reg_setReg_of_ne _ _ (ne_of_beq_false h), .inl (by simp)⟩
  | pop a =>
    refine (withRegA_next (i := .pop a) rfl h).elim .inl fun ⟨r, hr, hk⟩ => ?_
    simp only [State.spInc_eq, sp_after_load hr] at hk
    by_cases hs : (if a.toNat = 7 then s.memRead s.sp else s.sp).toNat = 255
    · simp only [hs, if_true] at hk
      cases hk
      exact .inl ⟨_, _, .popAtTop a rfl (reg_le hr) hs, rfl⟩
    · simp only [hs, if_false] at hk
      cases hk
      exact .inr ⟨isRegByte_of_eq hr, rfl, .inr ⟨nofun, rfl⟩, .inl rfl, .inl rfl, .inl rfl,
        fun _ h =>
          have ⟨hd, h7⟩ := Bool.or_eq_false_iff.mp h
          (State.reg_setReg_of_ne _ _ (ne_of_beq_false h7)).trans
            (State.reg_setReg_of_ne _ _ (ne_operand hr hd)),
        .inl (by simp)⟩
  | prn a =>
    refine (withRegA_next (i := .prn a) rfl h).elim .inl fun ⟨r, hr, hk⟩ => ?_
    cases hk
    exact .inr ⟨isRegByte_of_eq hr, rfl, .inr ⟨nofun, rfl⟩, .inl rfl, .inl rfl,
      .inr ⟨a, r, rfl, hr, rfl⟩, fun _ _ => rfl, .inl (by simp)⟩
  | call a =>
    refine (withRegA_next (i := .call a) rfl h).elim .inl fun ⟨r, hr, hk⟩ => ?_
    simp only [State.push_eq] at hk
    by_cases hs : s.sp.toNat = 0
    · simp only [hs, if_true] at hk
      cases hk
      exact .inl ⟨_, _, .pushAtZero a (.inr rfl) (reg_le hr) hs, rfl⟩
    · simp only [hs, if_false] at hk
      cases hk
      exact .inr ⟨isRegByte_of_eq hr, rfl, .inr ⟨nofun, rfl⟩, .inl rfl,
        .inr ⟨_, hs, rfl, State.sp_setSp .., a, .inr rfl⟩, .inl rfl,
        fun _ h => State.reg_setReg_of_ne _ _ (ne_of_beq_false h), .inr (byte_le _)⟩
  | jmp a =>
    refine (withRegA_next (i := .jmp a) rfl h).elim .inl fun ⟨r, hr, hk⟩ => ?_
    cases hk
    exact .inr ⟨isRegByte_of_eq hr, rfl, .inr ⟨nofun, rfl⟩, .inl rfl, .inl rfl, .inl rfl,
      fun _ _ => rfl, .inr (byte_le _)⟩
  | jeq a =>
    refine (withRegA_next (i := .jeq a) rfl h).elim .inl fun ⟨r, hr, hk⟩ => ?_
    exact .inr (branch_completes (isRegByte_of_eq hr) nofun hk)
  | jne a =>
    refine (withRegA_next (i := .jne a) rfl h).elim .inl fun ⟨r, hr, hk⟩ => ?_
    exact .inr (branch_completes (isRegByte_of_eq hr) nofun hk)
  | ldi a b =>
    refine (withRegA_next (i := .ldi a b) rfl h).elim .inl fun ⟨r, hr, hk⟩ => ?_
    cases hk
    exact .inr ⟨isRegByte_of_eq hr, rfl, .inr ⟨nofun, rfl⟩, .inl rfl, .inl rfl, .inl rfl,
      fun _ h => State.reg_setReg_of_ne _ _ (ne_operand hr h), .inl (by simp)⟩
  | add a b =>
    refine (withRegA_next (i := .add a b) rfl h).elim .inl fun ⟨r, hr, hk⟩ => ?_
    refine (withRegB_next (i := .add a b) (.inl rfl) (reg_le hr) hk).elim .inl
      fun ⟨r', hr', hk⟩ => ?_
    cases hk
    exact .inr ⟨by simp [Instr.wf, isRegByte_of_eq hr, isRegByte_of_eq hr'], rfl,
      .inr ⟨nofun, rfl⟩, .inl rfl, .inl rfl, .inl rfl,
      fun _ h => State.reg_setReg_of_ne _ _ (ne_operand hr h), .inl (by simp [alu])⟩
  | mul a b =>
    refine (withRegA_next (i := .mul a b) rfl h).elim .inl fun ⟨r, hr, hk⟩ => ?_
    refine (withRegB_next (i := .mul a b) (.inr (.inl rfl)) (reg_le hr) hk).elim .inl
      fun ⟨r', hr', hk⟩ => ?_
    cases hk
    exact .inr ⟨by simp [Instr.wf, isRegByte_of_eq hr, isRegByte_of_eq hr'], rfl,
      .inr ⟨nofun, rfl⟩, .inl rfl, .inl rfl, .inl rfl,
      fun _ h => State.reg_setReg_of_ne _ _ (ne_operand hr h), .inl (by simp [alu])⟩
  | cmp a b =>
    refine (withRegA_next (i := .cmp a b) rfl h).elim .inl fun ⟨r, hr, hk⟩ => ?_
    refine (withRegB_next (i := .cmp a b) (.inr (.inr rfl)) (reg_le hr) hk).elim .inl
      fun ⟨r', hr', hk⟩ => ?_
    cases hk
    exact .inr ⟨by simp [Instr.wf, isRegByte_of_eq hr, isRegByte_of_eq hr'], rfl,
      .inr ⟨nofun, rfl⟩, .inr ⟨a, b, _, _, rfl, rfl⟩, .inl rfl, .inl rfl,
      fun _ _ => rfl, .inl (by simp [alu])⟩

end Sys2Proof.Machine
end

