-- ==== Sys2Proof/Laws/PerInstr.lean ====
section
/-! SUPPORT. Facts about every instruction as syntax, one lemma per constructor. -/

namespace Sys2Proof.Laws.EncodedLength

/-- The encoding of the instruction has the length of its format, which is what the two high bits of
its opcode byte give (30_encoding.md R55, R58, R60). -/
def Statement (i : Instr) : Prop :=
  (encode i).length = i.op.format.length ∧ i.op.format.length = lengthFromOpcode i.op.opcode

/-- The two high bits of every opcode byte of the map give its format's length (R58). -/
theorem format_length_eq (op : Op) : op.format.length = lengthFromOpcode op.opcode := by
  cases op <;> decide

theorem hlt : Statement .hlt := ⟨rfl, format_length_eq _⟩
theorem ret : Statement .ret := ⟨rfl, format_length_eq _⟩
theorem push (a : Byte) : Statement (.push a) := ⟨rfl, format_length_eq _⟩
theorem pop (a : Byte) : Statement (.pop a) := ⟨rfl, format_length_eq _⟩
theorem prn (a : Byte) : Statement (.prn a) := ⟨rfl, format_length_eq _⟩
theorem call (a : Byte) : Statement (.call a) := ⟨rfl, format_length_eq _⟩
theorem jmp (a : Byte) : Statement (.jmp a) := ⟨rfl, format_length_eq _⟩
theorem jeq (a : Byte) : Statement (.jeq a) := ⟨rfl, format_length_eq _⟩
theorem jne (a : Byte) : Statement (.jne a) := ⟨rfl, format_length_eq _⟩
theorem ldi (a b : Byte) : Statement (.ldi a b) := ⟨rfl, format_length_eq _⟩
theorem add (a b : Byte) : Statement (.add a b) := ⟨rfl, format_length_eq _⟩
theorem mul (a b : Byte) : Statement (.mul a b) := ⟨rfl, format_length_eq _⟩
theorem cmp (a b : Byte) : Statement (.cmp a b) := ⟨rfl, format_length_eq _⟩

end Sys2Proof.Laws.EncodedLength
end

