-- ==== Sys2Proof/Machine/Assembly.lean ====
section
/-! DEFINITION. The assembler syntax of 30_encoding.md R67, as text of an instruction. The source has
no pseudo-instruction, directive or label (R68), so every line of a listing is one instruction. -/

namespace Sys2Proof

/-- The mnemonic of an operation (R57). -/
def Op.mnemonic : Op → String
  | .hlt  => "HLT"
  | .ret  => "RET"
  | .push => "PUSH"
  | .pop  => "POP"
  | .prn  => "PRN"
  | .call => "CALL"
  | .jmp  => "JMP"
  | .jeq  => "JEQ"
  | .jne  => "JNE"
  | .ldi  => "LDI"
  | .add  => "ADD"
  | .mul  => "MUL"
  | .cmp  => "CMP"

/-- The name of the register a byte names: R0..R7; a byte that names none is written alike (R67). -/
def registerText (v : Byte) : String := "R" ++ toString v.toNat

/-- An immediate, in decimal (R67). -/
def immediateText (v : Byte) : String := toString v.toNat

/-- The operands in encoding order, separated by commas without spaces (R67). -/
def Instr.operandText : Instr → String
  | .hlt | .ret => ""
  | .push a | .pop a | .prn a | .call a | .jmp a | .jeq a | .jne a => registerText a
  | .ldi a b => registerText a ++ "," ++ immediateText b
  | .add a b | .mul a b | .cmp a b => registerText a ++ "," ++ registerText b

/-- An instruction as the source writes it, "LDI R0,200" (R67). -/
def Instr.assembly (i : Instr) : String :=
  if i.operands = [] then i.op.mnemonic else i.op.mnemonic ++ " " ++ i.operandText

/-- A listing on one line, "LDI R0,8; PRN R0; HLT" (R67). -/
def listing (is : List Instr) : String := "; ".intercalate (is.map Instr.assembly)

end Sys2Proof
end

