-- ==== Sys2Proof/Tests/Slice0.lean ====
section
/-! SUPPORT. Tests of the model (expected results from spec/95_test_vectors.md and the examples of the
instruction rules, by their vector ids) and a witness for the hypotheses of each obligation. -/

namespace Sys2Proof.Tests

open Sys2Proof.Machine

/-- Reset with an image, R0..R6 being 0. -/
def st (image : List Byte) : State := State.resetWith (Vector.replicate 7 0#8) image

/-- The same with R0 and R1 set. -/
def st2 (image : List Byte) (r0 r1 : Byte) : State := ((st image).setReg 0 r0).setReg 1 r1

/-- The state after one step. -/
def after (s : State) : State :=
  match step s with
  | .next t => t
  | .fault _ => s
  | .refused _ => s

/-! ## Well-formedness: an ill-formed term for each check -/

theorem test_wf_refuses_bad_a_of_F1 : (Instr.push 8).wf = false := by decide
theorem test_wf_refuses_bad_a_of_F2I : (Instr.ldi 255 0).wf = false := by decide
theorem test_wf_refuses_bad_a_of_F2R : (Instr.add 8 0).wf = false := by decide
theorem test_wf_refuses_bad_b_of_F2R : (Instr.cmp 0 8).wf = false := by decide
theorem test_wf_accepts_any_immediate : (Instr.ldi 7 255).wf = true := by decide

/-! ## Decoding: a word written out for every constructor (R57, R60) -/

theorem test_decode_hlt : decode 0b00000001#8 0xFF#8 0xFF#8 = .instr .hlt := by decide
theorem test_decode_ret : decode 0b00010001#8 0xFF#8 0xFF#8 = .instr .ret := by decide
theorem test_decode_push : decode 0b01000101#8 0b00000001#8 0xFF#8 = .instr (.push 1) := by decide
theorem test_decode_pop : decode 0b01000110#8 0b00000010#8 0xFF#8 = .instr (.pop 2) := by decide
theorem test_decode_prn : decode 0b01000111#8 0b00000011#8 0xFF#8 = .instr (.prn 3) := by decide
theorem test_decode_call : decode 0b01010000#8 0b00000100#8 0xFF#8 = .instr (.call 4) := by decide
theorem test_decode_jmp : decode 0b01010100#8 0b00000101#8 0xFF#8 = .instr (.jmp 5) := by decide
theorem test_decode_jeq : decode 0b01010101#8 0b00000110#8 0xFF#8 = .instr (.jeq 6) := by decide
theorem test_decode_jne : decode 0b01010110#8 0b00000111#8 0xFF#8 = .instr (.jne 7) := by decide
theorem test_decode_ldi : decode 0b10000010#8 0b00000000#8 0b11001000#8 = .instr (.ldi 0 200) := by
  decide
theorem test_decode_add : decode 0b10100000#8 0b00000000#8 0b00000001#8 = .instr (.add 0 1) := by
  decide
theorem test_decode_mul : decode 0b10100010#8 0b00000010#8 0b00000011#8 = .instr (.mul 2 3) := by
  decide
theorem test_decode_cmp : decode 0b10100111#8 0b00000100#8 0b00000101#8 = .instr (.cmp 4 5) := by
  decide

/-- A word numbered as the table numbers it: the second byte is bits 15..8. -/
theorem test_decodeTableWord : decodeTableWord 24 0xC80082 = some (.ldi 0 200) ∧
    decodeTableWord 16 0x0745 = some (.push 7) ∧ decodeTableWord 8 0x0745 = some (.push 0) ∧
    decodeTableWord 8 0xA1 = none := by decide

/-- `State.reset` is the reset with the empty image and the model's `GPR_INIT`
(notes/assumptions/1.md); its first step fetches 0x00 (R56, notes/assumptions/10.md). -/
theorem test_reset : State.reset = State.resetWith (Vector.replicate 7 0#8) [] ∧
    (after State.reset).fault = some { cause := .unknownOpcode, fpc := 0, opcode := some 0#8, info := .noDetail } := by
  decide

/-- The first step after reset runs the placed word: LDI R0,200, then PRN R7, then HLT. -/
theorem test_withFetchWord : (after (State.reset.withFetchWord 24 0xC80082)).reg 0 = 200 ∧
    (after (State.reset.withFetchWord 16 0x0747)).out = [244] ∧
    (after (State.reset.withFetchWord 8 0x01)).status = .halted := by decide

/-! ## One step of each instruction (95_test_vectors.md L2) -/

/-- A1 -/
theorem test_add_wraps : (after (st2 [0xA0, 0, 1] 200 100)).reg 0 = 44 ∧
    (after (st2 [0xA0, 0, 1] 200 100)).pc = 3 := by decide
/-- A3 -/
theorem test_add_to_sp_wraps_without_fault : (after (st2 [0xA0, 7, 0] 12 0)).sp = 0 ∧
    (after (st2 [0xA0, 7, 0] 12 0)).status = .running := by decide
/-- A7 -/
theorem test_mul_keeps_low_byte : (after (st2 [0xA2, 0, 1] 200 2)).reg 0 = 144 := by decide
/-- A6 -/
theorem test_mul_squares : (after (st2 [0xA2, 0, 0] 255 0)).reg 0 = 1 := by decide
/-- A13 -/
theorem test_cmp_is_unsigned : (after (st2 [0xA7, 0, 1] 0x80 0x7F)).flags.toByte = 2 := by decide
/-- A11 -/
theorem test_cmp_less : (after (st2 [0xA7, 0, 1] 3 9)).flags.toByte = 4 := by decide
/-- B2 -/
theorem test_ldi_sets_sp : (after (st [0x82, 7, 16])).sp = 16 := by decide
/-- E5 -/
theorem test_ldi_at_253_leaves_pc_256 :
    (after { st [] with pc := 253, mem := [(253, 0x82#8), (255, 7#8)] }).pc = 256 := by decide
/-- B6 -/
theorem test_prn_sp : (after (st [0x47, 7])).out = [244] := by decide
/-- C8 -/
theorem test_push_sp_stores_the_decremented : (after (st [0x45, 7])).mem = [(0, 0x45#8), (1, 7#8),
    (0xF3, 0xF3#8)] := by decide
/-- C3 -/
theorem test_push_at_zero_faults : (after ((st [0x45, 0]).setSp 0)).fault =
    some { cause := .stackOutOfRange, fpc := 0, opcode := some 0x45, info := .stack 0 .push } := by
  decide
/-- C10 -/
theorem test_pop_sp_increments_the_loaded :
    (after { st [] with mem := [(0, 0x46#8), (1, 7#8), (0xF4, 0x10#8)] }).sp = 0x11 := by decide
/-- C11 -/
theorem test_pop_sp_of_255_faults :
    (after { st [] with mem := [(0, 0x46#8), (1, 7#8), (0xF4, 0xFF#8)] }).outputs
      = { out := [], status := .faulted, fault := some { cause := .stackOutOfRange, fpc := 0, opcode := some 0x46#8, info := .stack 255 .pop } } ∧
    (after { st [] with mem := [(0, 0x46#8), (1, 7#8), (0xF4, 0xFF#8)] }).sp = 0xF4 := by decide
/-- D1 -/
theorem test_call : (after { st2 [0, 0, 0, 0, 0, 0, 0x50, 1] 0 11 with pc := 6 }).pc = 11 ∧
    (after { st2 [0, 0, 0, 0, 0, 0, 0x50, 1] 0 11 with pc := 6 }).memRead 0xF3 = 8 := by decide
/-- D3 -/
theorem test_call_sp_jumps_to_the_decremented : (after (st [0x50, 7])).pc = 0xF3 := by decide
/-- D2 -/
theorem test_ret : (after { (st [0x11]).setSp 0xF3 with mem := [(0, 0x11#8), (0xF3, 8#8)] }).pc = 8 ∧
    (after { (st [0x11]).setSp 0xF3 with mem := [(0, 0x11#8), (0xF3, 8#8)] }).sp = 0xF4 := by decide
/-- D5 -/
theorem test_ret_at_255_faults : (after ((st [0x11]).setSp 255)).status = .faulted := by decide
/-- D9 -/
theorem test_jmp : (after (st2 [0x54, 0] 254 0)).pc = 254 := by decide
/-- D10, D12 -/
theorem test_jeq : (after { st2 [0x55, 0] 20 0 with flags := ⟨true, false, false⟩ }).pc = 20 ∧
    (after (st2 [0x55, 0] 20 0)).pc = 2 := by decide
/-- D16 -/
theorem test_jeq_untaken_checks_its_register : (after (st [0x55, 9, 1])).fault =
    some { cause := .invalidRegister, fpc := 0, opcode := some 0x55, info := .register .a 9 } := by
  decide
/-- D15, D14 -/
theorem test_jne : (after { st2 [0x56, 0] 20 0 with flags := ⟨true, false, false⟩ }).pc = 2 ∧
    (after { st2 [0x56, 0] 20 0 with flags := ⟨false, false, true⟩ }).pc = 20 := by decide
/-- E2 -/
theorem test_hlt : (after (st [1, 0xFF, 0xFF])).status = .halted ∧
    (after (st [1, 0xFF, 0xFF])).pc = 0 := by decide
/-- E3, E4 -/
theorem test_fetch_at_254_faults_first :
    (after { st [] with pc := 254, mem := [(254, 1#8)] }).fault =
      some { cause := .fetchOutOfRange, fpc := 254, opcode := none, info := .noDetail } := by decide
/-- E7 -/
theorem test_sub_is_unknown : (after (st [0xA1, 0, 1])).fault =
    some { cause := .unknownOpcode, fpc := 0, opcode := some 0xA1, info := .noDetail } := by decide
/-- A16 -/
theorem test_bad_b : (after (st [0xA0, 0, 8])).fault =
    some { cause := .invalidRegister, fpc := 0, opcode := some 0xA0, info := .register .b 8 } := by
  decide

/-- The spelling of R67's examples. -/
theorem test_assembly : (Instr.ldi 0 200).assembly = "LDI R0,200" ∧
    (Instr.add 0 1).assembly = "ADD R0,R1" ∧ (Instr.jeq 2).assembly = "JEQ R2" ∧
    listing [.ldi 0 8, .prn 0, .hlt] = "LDI R0,8; PRN R0; HLT" := by decide

/-- R108's reports of the ends of a run. -/
theorem test_report : (after (st [1])).report = some .cleanReturn ∧ (st [1]).report = none ∧
    (after (st [])).report = some (.fatalError { cause := .unknownOpcode, fpc := 0, opcode := some 0#8, info := .noDetail }) := by
  decide

/-! ## Witnesses: states and operands that meet the hypotheses of the obligations, clause by clause,
at the boundary values -/

theorem witness_OpcodeMapBytesDecode : ∃ ir a b i, decode ir a b = .instr i :=
  ⟨0xA7, 8, 255, .cmp 8 255, by decide⟩

theorem witness_LengthIsGivenByTheTwoHighBits :
    (∃ ir a b i, decode ir a b = .instr i) ∧ (0xC0#8).toNat / 64 = 3 ∧ (0xFF#8).toNat / 64 = 3 :=
  ⟨⟨0x01, 0, 0, .hlt, by decide⟩, by decide, by decide⟩

theorem witness_IllegalOpcodeByteFaults : ∃ s : State, s.status = .running ∧ s.pc = 253 ∧
    s.opcodeAt ∉ [0x01#8, 0x11#8, 0x45#8, 0x46#8, 0x47#8, 0x50#8, 0x54#8, 0x55#8, 0x56#8, 0x82#8,
      0xA0#8, 0xA2#8, 0xA7#8] :=
  ⟨{ st [] with pc := 253, mem := [(253, 0xA1#8)] }, by decide⟩

theorem witness_StepRunsTheDecodedInstruction : ∃ (s : State) (i : Instr), s.status = .running ∧
    s.pc = 253 ∧ decode s.opcodeAt s.firstAt s.secondAt = .instr i :=
  ⟨{ st [] with pc := 253, mem := [(253, 0x82#8), (255, 7#8)] }, .ldi 0 7, by decide⟩

theorem witness_FetchReadsThreeBytesOrFaults :
    (∃ s : State, s.status = .running ∧ s.pc + 2 = 256) ∧ ∃ s : State, s.pc + 2 = 255 :=
  ⟨⟨{ st [] with pc := 254 }, by decide⟩, ⟨{ st [] with pc := 253 }, by decide⟩⟩

theorem witness_BadRegisterOperandFaults :
    (∃ (i : Instr) (a : Byte), i ≠ .hlt ∧ i ≠ .ret ∧ i.operands.head? = some a ∧ a.toNat = 8) ∧
    (∃ (i : Instr) (a b : Byte), i = .mul a b ∧ a.toNat = 7 ∧ b.toNat = 8) ∧
    (∃ (i : Instr) (s t : State) (r : FaultRecord), i.wf = true ∧ exec i s = .next t ∧
      s.fault = none ∧ t.fault = some r) :=
  ⟨⟨.jeq 8, 8, by decide⟩, ⟨.mul 7 8, 7, 8, by decide⟩,
   ⟨.push 7, (st []).setSp 0, _, _, by decide, rfl, rfl, rfl⟩⟩

/-- A step that faults, for the statements about a raised fault. -/
theorem witness_fault (s : State) (hs : s.status = .running) (h : (after s).fault.isSome = true) :
    ∃ t r, step s = .next t ∧ t.fault = some r ∧ t.status = .faulted := by
  unfold after at h
  have hf := hs
  simp only [State.status] at hf
  split at h
  · rename_i t ht
    obtain ⟨r, hr⟩ := Option.isSome_iff_exists.mp h
    exact ⟨t, r, ht, hr, by simp [State.status, hr]⟩
  all_goals
    rw [if_pos h] at hf
    cases hf

/-- FaultPriorityIsFixed: a state for each clause, two causes applying where two can. -/
theorem witness_FaultPriorityIsFixed :
    (∃ s : State, s.pc = 254 ∧ ∃ t r, step s = .next t ∧ t.fault = some r ∧ t.status = .faulted) ∧
    (∃ s : State, s.pc = 253 ∧
      decode s.opcodeAt s.firstAt s.secondAt = .unknownOpcode s.opcodeAt ∧
      ∃ t r, step s = .next t ∧ t.fault = some r ∧ t.status = .faulted) ∧
    (∃ s : State, decode s.opcodeAt s.firstAt s.secondAt = .instr (.push 9) ∧ s.sp = 0 ∧
      ∃ t r, step s = .next t ∧ t.fault = some r ∧ t.status = .faulted) ∧
    (∃ s : State, decode s.opcodeAt s.firstAt s.secondAt = .instr (.add 7 8) ∧
      ∃ t r, step s = .next t ∧ t.fault = some r ∧ t.status = .faulted) ∧
    (∃ s : State, decode s.opcodeAt s.firstAt s.secondAt = .instr (.push 7) ∧
      (Instr.push 7).wf = true ∧
      ∃ t r, step s = .next t ∧ t.fault = some r ∧ t.status = .faulted) :=
  ⟨⟨{ st [] with pc := 254 }, by decide, witness_fault _ (by decide) (by decide)⟩,
   ⟨{ st [] with pc := 253 }, by decide, by decide, witness_fault _ (by decide) (by decide)⟩,
   ⟨(st [0x45, 9]).setSp 0, by decide, by decide, witness_fault _ (by decide) (by decide)⟩,
   ⟨st [0xA0, 7, 8], by decide, witness_fault _ (by decide) (by decide)⟩,
   ⟨(st [0x45, 7]).setSp 0, by decide, by decide, witness_fault _ (by decide) (by decide)⟩⟩

/-- FaultsArePreciseAndAtomic, EachCauseIsRaisedByItsInstructions, AluUnsupportedIsUnreachable: a
Running state with a step to a Faulted one, on either side of pc = 253. -/
theorem witness_FaultsArePreciseAndAtomic :
    (∃ s t : State, ∃ r, s.status = .running ∧ s.pc = 253 ∧ step s = .next t ∧ t.fault = some r ∧
      t.status = .faulted) ∧
    (∃ s t : State, ∃ r, s.status = .running ∧ s.pc = 254 ∧ step s = .next t ∧ t.fault = some r ∧
      t.status = .faulted) := by
  constructor
  · obtain ⟨t, r, h⟩ := witness_fault { st [] with pc := 253 } (by decide) (by decide)
    exact ⟨_, t, r, by decide, by decide, h⟩
  · obtain ⟨t, r, h⟩ := witness_fault { st [] with pc := 254 } (by decide) (by decide)
    exact ⟨_, t, r, by decide, by decide, h⟩

/-- EachCauseIsRaisedByItsInstructions: a step for each cause it names. -/
theorem witness_EachCauseIsRaisedByItsInstructions :
    (after (st [])).fault.map (·.cause) = some .unknownOpcode ∧
    (after { st [] with pc := 254 }).fault.map (·.cause) = some .fetchOutOfRange ∧
    (after (st [0x82, 8])).fault.map (·.cause) = some .invalidRegister ∧
    (after ((st [0x50, 0]).setSp 0)).fault.map (·.cause) = some .stackOutOfRange ∧
    (after ((st [0x11]).setSp 255)).fault.map (·.cause) = some .stackOutOfRange ∧
    (after ((st [0x46, 6]).setSp 255)).fault.map (·.cause) = some .stackOutOfRange ∧
    (after { st [] with mem := [(0, 0x46#8), (1, 7#8), (0xF4, 0xFF#8)] }).fault.map (·.info)
      = some (.stack 255 .pop) := by decide

/-- RunningStepHasOneOfThreeOutcomes: a step of each outcome, and one that stores. -/
theorem witness_RunningStepHasOneOfThreeOutcomes :
    (∃ s t : State, s.status = .running ∧ s.AtInstr (.push 0) ∧ step s = .next t ∧
      t.status = .running ∧ t.memRead (s.sp - 1) ≠ s.memRead (s.sp - 1)) ∧
    (∃ s t : State, s.status = .running ∧ step s = .next t ∧ t.status = .halted) ∧
    (∃ s t : State, s.status = .running ∧ step s = .next t ∧ t.status = .faulted) :=
  ⟨⟨st2 [0x45, 0] 10 0, _, by decide, ⟨by decide, by decide, by decide⟩, rfl, by decide, by decide⟩,
   ⟨st [1], _, by decide, rfl, by decide⟩, ⟨st [], _, by decide, rfl, by decide⟩⟩

/-- The rows of R24 that write a register, and one that writes none. -/
theorem test_writesReg : writesReg (.pop 2) 2 = true ∧ writesReg (.pop 2) 7 = true ∧
    writesReg (.pop 2) 3 = false ∧ writesReg (.push 2) 2 = false ∧ writesReg (.push 2) 7 = true ∧
    writesReg (.add 0 1) 0 = true ∧ writesReg (.add 0 1) 1 = false ∧
    writesReg (.cmp 0 1) 0 = false := by decide

theorem witness_HaltedAndFaultedAreFinal :
    (∃ s : State, s.status = .halted) ∧ (∃ s : State, s.status = .faulted) ∧
    (∃ g q, ∃ s t : State, s.status ≠ .running ∧ serve g q s = .next t) :=
  ⟨⟨after (st [1]), by decide⟩, ⟨after (st []), by decide⟩,
   ⟨Config.gprInit, .reset [], after (st [1]), _, by decide, rfl⟩⟩

/-- Also for InvariantHoldsAfterReset and FirstFetchReadsTheImage: the longest image. -/
theorem witness_ResetAppliesTheEntryContract : (List.replicate 256 (0xFF : Byte)).length ≤ 256 :=
  Nat.le_of_eq List.length_replicate

theorem witness_OverlongImageIsRefused : (List.replicate 257 (0 : Byte)).length > 256 :=
  Nat.lt_of_lt_of_eq (by decide) (List.length_replicate (n := 257) (a := (0 : Byte))).symm

/-- EveryStepKeepsTheInvariant: a state with the invariant, not the reset state, and its step. -/
theorem witness_EveryStepKeepsTheInvariant : ∃ s t : State, s.Inv ∧ step s = .next t :=
  ⟨{ st [] with pc := 253, mem := [(253, 0x45#8)] }, _,
    ⟨by decide, by decide, by decide, by decide, by decide, by intro r h; cases h⟩, rfl⟩

/-- EveryReachableStateHasTheInvariant: a state two steps from a reset with a program. -/
theorem witness_EveryReachableStateHasTheInvariant : ∃ (g : Vector Byte 7) (image : List Byte)
    (t : State), image.length ≤ 256 ∧ Reaches (State.resetWith g image) t ∧ t.out = [7] :=
  ⟨Vector.replicate 7 0#8, [0x82, 0, 7, 0x47, 0, 1], _, by decide,
    .head rfl (.head rfl (.refl _)), by decide⟩

theorem witness_MemoriesThatReadAlikeAreEqual : ∃ m n : Memory, m.wf ∧ n.wf ∧ m ≠ [] ∧
    ∀ a : Addr, m.read a = n.read a :=
  ⟨[(0, 1#8), (255, 2#8)], [(0, 1#8), (255, 2#8)], by decide, by decide, by decide, fun _ => rfl⟩

/-- OnlyPrnAppendsOutput: a PRN that completes, a fault, and a reset that empties the output. -/
theorem witness_OnlyPrnAppendsOutput :
    (∃ s t : State, s.AtInstr (.prn 7) ∧ (7#8).toNat ≤ 7 ∧ step s = .next t) ∧
    (∃ s t : State, step s = .next t ∧ t.status = .faulted) ∧
    (∃ g q, ∃ s t : State, serve g q s = .next t ∧ s.out ≠ [] ∧ t.out = []) :=
  ⟨⟨st [0x47, 7], _, ⟨by decide, by decide, by decide⟩, by decide, rfl⟩,
   ⟨st [], _, rfl, by decide⟩,
   ⟨Config.gprInit, .reset [], { st [] with out := [1] }, _, rfl, by decide, rfl⟩⟩

/-- Two register operands at the ends of 0..7, and each operand just outside. -/
theorem witness_AddKeepsTheSumModulo256 :
    (∃ (a b : Byte) (ra rb : Reg), a.toNat = ra.val ∧ b.toNat = rb.val ∧ ra = 0 ∧ rb = 7) ∧
    (∃ a : Byte, a.toNat > 7 ∧ a.toNat = 8) ∧
    (∃ a b : Byte, a.toNat ≤ 7 ∧ b.toNat > 7 ∧ a.toNat = 7 ∧ b.toNat = 8) :=
  ⟨⟨0, 7, 0, 7, by decide⟩, ⟨8, by decide⟩, ⟨7, 8, by decide⟩⟩

/-- The same with the operands the other way round. -/
theorem witness_MulKeepsTheProductModulo256 :
    (∃ (a b : Byte) (ra rb : Reg), a.toNat = ra.val ∧ b.toNat = rb.val ∧ ra = 7 ∧ rb = 0) ∧
    (∃ a : Byte, a.toNat > 7 ∧ a.toNat = 255) ∧
    (∃ a b : Byte, a.toNat ≤ 7 ∧ b.toNat > 7 ∧ a.toNat = 0 ∧ b.toNat = 255) :=
  ⟨⟨7, 0, 7, 0, by decide⟩, ⟨255, by decide⟩, ⟨0, 255, by decide⟩⟩

/-- Registers equal, below and above; an operand just outside. -/
theorem witness_CmpSetsExactlyOneFlag :
    (∃ (a b : Byte) (ra rb : Reg) (s : State), a.toNat = ra.val ∧ b.toNat = rb.val ∧
      (s.reg ra).toNat = (s.reg rb).toNat ∧ ra ≠ rb) ∧
    (∃ (a b : Byte) (ra rb : Reg) (s : State), a.toNat = ra.val ∧ b.toNat = rb.val ∧
      (s.reg ra).toNat < (s.reg rb).toNat) ∧
    (∃ (a b : Byte) (ra rb : Reg) (s : State), a.toNat = ra.val ∧ b.toNat = rb.val ∧
      (s.reg ra).toNat > (s.reg rb).toNat) ∧
    (∃ a : Byte, a.toNat > 7) ∧ (∃ a b : Byte, a.toNat ≤ 7 ∧ b.toNat > 7) :=
  ⟨⟨0, 1, 0, 1, st2 [] 5 5, by decide⟩, ⟨0, 1, 0, 1, st2 [] 0 255, by decide⟩,
   ⟨0, 1, 0, 1, st2 [] 0x80 0x7F, by decide⟩, ⟨8, by decide⟩, ⟨7, 8, by decide⟩⟩

/-- LdiLoadsTheImmediate, PrnAppendsTheRegister, JmpGoesToTheRegister: an operand at each end of
0..7, and one just outside. -/
theorem witness_one_register_operand : (∃ (a : Byte) (ra : Reg), a.toNat = ra.val ∧ ra = 0) ∧
    (∃ (a : Byte) (ra : Reg), a.toNat = ra.val ∧ ra = 7) ∧ (∃ a : Byte, a.toNat > 7) :=
  ⟨⟨0, 0, by decide⟩, ⟨7, 7, by decide⟩, ⟨8, by decide⟩⟩

/-- PushStoresBelowTheStackPointer and PushThenPopRestores: SP at both ends of what may be
decremented, and SP = 0. -/
theorem witness_PushStoresBelowTheStackPointer :
    (∃ (a : Byte) (ra : Reg) (s : State), a.toNat = ra.val ∧ s.sp.toNat ≠ 0 ∧ s.sp = 1 ∧ ra = 7) ∧
    (∃ (a : Byte) (ra : Reg) (s : State), a.toNat = ra.val ∧ s.sp.toNat ≠ 0 ∧ s.sp = 255) ∧
    (∃ (a : Byte) (s : State), a.toNat ≤ 7 ∧ s.sp.toNat = 0) ∧ (∃ a : Byte, a.toNat > 7) :=
  ⟨⟨7, 7, (st []).setSp 1, by decide⟩, ⟨0, 0, (st []).setSp 255, by decide⟩,
   ⟨7, (st []).setSp 0, by decide⟩, ⟨8, by decide⟩⟩

/-- SP, and for R7 the loaded byte, at both sides of 255. -/
theorem witness_PopLoadsThenIncrements :
    (∃ (a : Byte) (ra : Reg) (s : State), a.toNat = ra.val ∧ ra ≠ 7 ∧ s.sp.toNat ≠ 255 ∧
      s.sp = 254 ∧ ra = 6) ∧
    (∃ (a : Byte) (s : State), a.toNat = 7 ∧ (s.memRead s.sp).toNat ≠ 255 ∧ s.sp = 255) ∧
    (∃ (a : Byte) (s : State), a.toNat < 7 ∧ s.sp.toNat = 255) ∧
    (∃ (a : Byte) (s : State), a.toNat = 7 ∧ (s.memRead s.sp).toNat = 255) ∧
    (∃ a : Byte, a.toNat > 7) :=
  ⟨⟨6, 6, (st []).setSp 254, by decide⟩,
   ⟨7, { (st []).setSp 255 with mem := [(255, 254#8)] }, by decide⟩,
   ⟨6, (st []).setSp 255, by decide⟩, ⟨7, { st [] with mem := [(0xF4, 255#8)] }, by decide⟩,
   ⟨8, by decide⟩⟩

/-- The stored byte is the opcode fetched next, at the last pc that allows it, and the second operand
byte of the next window; and for CALL at pc = 253 with the last target, into R7 too. -/
theorem witness_NextFetchSeesThePushedByte :
    (∃ (a : Byte) (ra : Reg) (s : State) (k : Nat), a.toNat = ra.val ∧ s.sp.toNat ≠ 0 ∧ k < 3 ∧
      s.pc = 251 ∧ s.pc + 2 + k = s.sp.toNat - 1) ∧
    (∃ (a : Byte) (ra : Reg) (s : State) (k : Nat), a.toNat = ra.val ∧ s.sp.toNat ≠ 0 ∧ k = 2 ∧
      s.pc ≤ 251 ∧ s.pc + 2 + k = s.sp.toNat - 1) ∧
    (∃ (a : Byte) (ra : Reg) (s : State) (k : Nat), a.toNat = ra.val ∧ s.sp.toNat ≠ 0 ∧ k = 2 ∧
      s.pc = 253 ∧ (if ra = 7 then s.sp - 1 else s.reg ra).toNat = 252 ∧
      (if ra = 7 then s.sp - 1 else s.reg ra).toNat + k = s.sp.toNat - 1) ∧
    (∃ (a : Byte) (ra : Reg) (s : State) (k : Nat), a.toNat = ra.val ∧ s.sp.toNat ≠ 0 ∧ k = 0 ∧
      ra = 7 ∧ s.pc ≤ 253 ∧ (if ra = 7 then s.sp - 1 else s.reg ra).toNat = 253 ∧
      (if ra = 7 then s.sp - 1 else s.reg ra).toNat + k = s.sp.toNat - 1) :=
  ⟨⟨0, 0, { (st []).setSp 254 with pc := 251 }, 0, by decide⟩,
   ⟨7, 7, (st []).setSp 5, 2, by decide⟩,
   ⟨1, 1, { (st2 [] 0 252).setSp 255 with pc := 253 }, 2, by decide⟩,
   ⟨7, 7, (st []).setSp 254, 0, by decide⟩⟩

/-- CallPushesTheReturnAddress and CallThenRetResumes: pc = 253, SP at both ends, and SP = 0. -/
theorem witness_CallPushesTheReturnAddress :
    (∃ (a : Byte) (ra : Reg) (s : State), a.toNat = ra.val ∧ a.toNat ≤ 7 ∧ s.pc ≤ 253 ∧
      s.sp.toNat ≠ 0 ∧ s.pc = 253 ∧ s.sp = 1) ∧
    (∃ (a : Byte) (ra : Reg) (s : State), a.toNat = ra.val ∧ a.toNat ≤ 7 ∧ s.pc ≤ 253 ∧
      s.sp.toNat ≠ 0 ∧ s.sp = 255 ∧ ra = 0) ∧
    (∃ (a : Byte) (s : State), a.toNat ≤ 7 ∧ s.sp.toNat = 0) ∧ (∃ a : Byte, a.toNat > 7) :=
  ⟨⟨7, 7, { (st []).setSp 1 with pc := 253 }, by decide⟩, ⟨0, 0, (st []).setSp 255, by decide⟩,
   ⟨7, (st []).setSp 0, by decide⟩, ⟨8, by decide⟩⟩

theorem witness_RetPopsThePc :
    (∃ s : State, s.sp.toNat ≠ 255 ∧ s.sp = 254) ∧ (∃ s : State, s.sp.toNat = 255) :=
  ⟨⟨(st []).setSp 254, by decide⟩, ⟨(st []).setSp 255, by decide⟩⟩

/-- JeqJumpsWhenEqual and JneJumpsWhenNotEqual: E set and E clear, and an operand just outside. -/
theorem witness_JeqJumpsWhenEqual :
    (∃ (a : Byte) (ra : Reg) (s : State), a.toNat = ra.val ∧ a.toNat ≤ 7 ∧ s.flags.e = true) ∧
    (∃ (a : Byte) (ra : Reg) (s : State), a.toNat = ra.val ∧ a.toNat ≤ 7 ∧ s.flags.e = false) ∧
    (∃ a : Byte, a.toNat > 7) :=
  ⟨⟨7, 7, { st [] with flags := ⟨true, false, false⟩ }, by decide⟩, ⟨0, 0, st [], by decide⟩,
   ⟨8, by decide⟩⟩

theorem witness_JumpToItselfRunsForever : ∃ (a : Byte) (ra : Reg) (s : State), s.AtInstr (.jmp a) ∧
    a.toNat = ra.val ∧ (s.reg ra).toNat = s.pc :=
  ⟨0, 0, { st2 [] 253 0 with pc := 253, mem := [(253, 0x54#8)] },
    ⟨by decide, by decide, by decide⟩, by decide, by decide⟩

/-- NextPcOfEachInstruction: a step of each clause that does not fault. -/
theorem witness_NextPcOfEachInstruction :
    (∃ s t : State, s.AtInstr .hlt ∧ step s = .next t ∧ t.status ≠ .faulted) ∧
    (∃ s t : State, s.AtInstr .ret ∧ step s = .next t ∧ t.status ≠ .faulted) ∧
    (∃ s t : State, s.AtInstr (.cmp 7 7) ∧ step s = .next t ∧ t.status ≠ .faulted) ∧
    (∃ s t : State, s.AtInstr (.pop 0) ∧ step s = .next t ∧ t.status ≠ .faulted) ∧
    (∃ s t : State, s.AtInstr (.call 7) ∧ step s = .next t ∧ t.status ≠ .faulted) ∧
    (∃ s t : State, s.AtInstr (.jmp 7) ∧ step s = .next t ∧ t.status ≠ .faulted) ∧
    (∃ s t : State, s.AtInstr (.jeq 0) ∧ step s = .next t ∧ t.status ≠ .faulted) ∧
    (∃ s t : State, s.AtInstr (.jne 0) ∧ step s = .next t ∧ t.status ≠ .faulted) :=
  ⟨⟨st [1], _, ⟨by decide, by decide, by decide⟩, rfl, by decide⟩,
   ⟨st [0x11], _, ⟨by decide, by decide, by decide⟩, rfl, by decide⟩,
   ⟨st [0xA7, 7, 7], _, ⟨by decide, by decide, by decide⟩, rfl, by decide⟩,
   ⟨st [0x46], _, ⟨by decide, by decide, by decide⟩, rfl, by decide⟩,
   ⟨st [0x50, 7], _, ⟨by decide, by decide, by decide⟩, rfl, by decide⟩,
   ⟨st [0x54, 7], _, ⟨by decide, by decide, by decide⟩, rfl, by decide⟩,
   ⟨st [0x55], _, ⟨by decide, by decide, by decide⟩, rfl, by decide⟩,
   ⟨st [0x56], _, ⟨by decide, by decide, by decide⟩, rfl, by decide⟩⟩

theorem witness_OnlyHltSetsTheHaltFlag :
    (∃ s t : State, step s = .next t ∧ s.halt = false ∧ t.halt = true) ∧
    (∃ g q, ∃ s t : State, serve g q s = .next t ∧ s.halt = true) ∧
    (∃ s : State, s.fault = none) :=
  ⟨⟨st [1], _, rfl, by decide, by decide⟩,
   ⟨Config.gprInit, .reset [1], { st [] with halt := true }, _, rfl, rfl⟩, ⟨st [], rfl⟩⟩

/-- The frames: an instruction of each group that answers a next state, well formed. -/
theorem witness_frames :
    (∃ s t : State, exec (.add 7 0) s = .next t ∧ (Instr.add 7 0).wf = true) ∧
    (∃ s t : State, exec (.cmp 0 7) s = .next t ∧ (Instr.cmp 0 7).wf = true) ∧
    (∃ s t : State, exec (.push 7) s = .next t ∧ (Instr.push 7).wf = true ∧ s.sp.toNat ≠ 0) ∧
    (∃ s t : State, exec (.call 8) s = .next t ∧ (Instr.call 8).wf = false) ∧
    (∃ s t : State, exec (.pop 6) s = .next t) :=
  ⟨⟨st [], _, rfl, by decide⟩, ⟨st [], _, rfl, by decide⟩, ⟨st [], _, rfl, by decide, by decide⟩,
   ⟨st [], _, rfl, by decide⟩, ⟨st [], _, rfl⟩⟩

theorem witness_OnlyCmpWritesFlags :
    (∃ s t : State, step s = .next t ∧ t.flags ≠ s.flags) ∧
    (∃ s t : State, s.AtInstr (.cmp 0 1) ∧ step s = .next t ∧ t.status = .running) :=
  ⟨⟨st [0xA7, 0, 1], _, rfl, by decide⟩,
   ⟨st [0xA7, 0, 1], _, ⟨by decide, by decide, by decide⟩, rfl, by decide⟩⟩

/-- LessAndGreaterAreNeverRead and OnlyJeqAndJneReadEqual: a step, and an instruction that is no
conditional jump. -/
theorem witness_flag_reads : (∃ s t : State, step s = .next t) ∧
    ∃ (i : Instr) (s t : State), (∀ a, i ≠ .jeq a ∧ i ≠ .jne a) ∧ exec i s = .next t :=
  ⟨⟨st [0x55], _, rfl⟩, ⟨.jmp 0, st [], _, fun _ => ⟨nofun, nofun⟩, rfl⟩⟩

/-- MemoryIsWrittenOnlyByPushAndCall: a step that changes a byte, a PUSH whose store falls on its own
opcode byte (vector C4 has one on the program's first byte), and a CALL at SP = 1. -/
theorem witness_MemoryIsWrittenOnlyByPushAndCall :
    (∃ (s t : State) (x : Addr), step s = .next t ∧ t.memRead x ≠ s.memRead x) ∧
    (∃ (s : State) (a : Byte) (ra : Reg), a.toNat = ra.val ∧ s.sp.toNat ≠ 0 ∧ s.AtInstr (.push a) ∧
      s.pc = (s.sp - 1).toNat) ∧
    (∃ (s : State) (a : Byte) (ra : Reg), a.toNat = ra.val ∧ s.sp = 1 ∧ s.AtInstr (.call a)) :=
  ⟨⟨st2 [0x45, 0] 10 0, _, 0xF3, rfl, by decide⟩,
   ⟨(st [0x45, 7]).setSp 1, 7, 7, by decide, by decide, ⟨by decide, by decide, by decide⟩, by decide⟩,
   ⟨(st [0x50, 7]).setSp 1, 7, 7, by decide, by decide, ⟨by decide, by decide, by decide⟩⟩⟩

/-- C4's second step: the PUSH overwrites the program's first byte. -/
theorem test_push_overwrites_the_program :
    (after { (st [0x82, 7, 1, 0x45, 0, 1]).setSp 1 with pc := 3 }).opcodeAt = 1 ∧
    (after { (st [0x82, 7, 1, 0x45, 0, 1]).setSp 1 with pc := 3 }).memRead 0 = 0 := by decide

theorem witness_StackFaultsOnlyAtTheMemoryBounds : ∃ (s t : State) (r : FaultRecord),
    s.status = .running ∧ step s = .next t ∧ t.fault = some r ∧ r.cause = .stackOutOfRange ∧
    (∀ a : Byte, a.toNat = 7 → ¬ s.AtInstr (.pop a)) :=
  ⟨(st [0x45, 0]).setSp 0, _, _, by decide, rfl, rfl, rfl, fun a _ h =>
    absurd (h.2.2 : Verdict.instr (.push 0) = .instr (.pop a)) nofun⟩

/-- OnlyPopWritesTwoRegisters (vector C2): a step that changes two registers, and POP at SP = 254. -/
theorem witness_OnlyPopWritesTwoRegisters :
    (∃ (s t : State) (i : Instr) (r r' : Reg), s.AtInstr i ∧ step s = .next t ∧ r ≠ r' ∧
      t.reg r ≠ s.reg r ∧ t.reg r' ≠ s.reg r') ∧
    (∃ (s : State) (a : Byte) (ra : Reg), s.AtInstr (.pop a) ∧ a.toNat = ra.val ∧ ra ≠ 7 ∧
      s.sp.toNat = 254) :=
  ⟨⟨{ (st []).setSp 0xF3 with mem := [(0, 0x46#8), (1, 1#8), (0xF3, 10#8)] }, _, .pop 1, 1, 7,
     ⟨by decide, by decide, by decide⟩, rfl, by decide, by decide, by decide⟩,
   ⟨(st [0x46, 6]).setSp 254, 6, 6, ⟨by decide, by decide, by decide⟩, by decide, by decide,
     by decide⟩⟩

end Sys2Proof.Tests
end

section
/-! The state of the block (10_state.md): the reset state, the invariant of every step, who writes the
halt flag and FL, and who reads FL. -/

namespace Sys2Proof.Machine

variable {i j : Instr} {s t : State} {cause : FaultCause} {info : FaultInfo}

/-! ### The instruction at pc -/

/-- The byte at pc is the opcode byte of the instruction the window holds. -/
theorem State.AtInstr.opcodeAt_eq (h : s.AtInstr i) : s.opcodeAt = i.op.opcode :=
  opcode_of_decode h.2.2

/-- A window holds one instruction. -/
theorem State.AtInstr.unique (hi : s.AtInstr i) (hj : s.AtInstr j) : i = j := by
  obtain ⟨-, -, hdi⟩ := hi
  obtain ⟨-, -, hdj⟩ := hj
  exact Verdict.instr.inj (hdi.symm.trans hdj)

/-- A step of a block at an instruction is that instruction's rule, and nothing else (40_engine.md
R74, R75). -/
theorem step_of_atInstr (h : s.AtInstr i) : step s = exec i s := by
  obtain ⟨hr, hp, hd⟩ := h
  simp [step, hr, runningStep, fetch_eq, Nat.not_lt.mpr hp, decodeAndRun, hd]

/-- No step is defined while the halt flag is set (10_state.md R30). -/
theorem halt_eq_false_of_step (h : step s = .next t) : s.halt = false :=
  ((State.status_running_iff s).mp (step_cases h).1).1

/-- What a step does, split by the instruction: a fault of the fetch, which holds no instruction and
changes the record only; or the instruction at pc, which takes one of its faults or completes. -/
theorem step_outcomes (h : step s = .next t) :
    (∃ c o, (∀ i, ¬ s.AtInstr i) ∧ t = s.takeFault c o .noDetail) ∨
    ∃ i, s.AtInstr i ∧ (TakesFault i s t ∨ Completes i s t) := by
  obtain ⟨-, ⟨hp, ht⟩ | ⟨-, hd, ht⟩ | ⟨i, hi, he⟩⟩ := step_cases h
  · exact .inl ⟨_, _, fun _ hi => Nat.not_le.mpr hp hi.2.1, ht⟩
  · refine .inl ⟨_, _, fun i hi => ?_, ht⟩
    exact nomatch hd.symm.trans hi.2.2
  · exact .inr ⟨i, hi, exec_cases he⟩

/-! ### The invariant -/

/-- CMP sets one flag and clears the two others (41_alu.md R84). -/
theorem compareFlags_count (x y : Byte) :
    [(compareFlags x y).e, (compareFlags x y).l, (compareFlags x y).g].count true = 1 := by
  unfold compareFlags
  split
  · rfl
  · split <;> rfl

theorem compareFlags_atMostOne (x y : Byte) : (compareFlags x y).atMostOne = true := by
  unfold compareFlags
  split
  · rfl
  · split <;> rfl

/-- The info an instruction's fault records fits its cause (60_exceptions.md R101). -/
theorem FaultReason.infoFits (h : FaultReason i s cause info) (n : Nat) (o : Option Byte) :
    ({ cause := cause, fpc := n, opcode := o, info := info } : FaultRecord).infoFits = true := by
  cases h with
  | badA a hi ha => exact decide_eq_true ha
  | badB a b hi ha hb => exact decide_eq_true hb
  | pushAtZero a hi ha hs => exact decide_eq_true hs
  | retAtTop hi hs => exact decide_eq_true hs
  | popAtTop a hi ha hs => exact decide_eq_true hs

/-- An instruction never faults with the cause of the fetch. -/
theorem FaultReason.cause_ne_fetchOutOfRange (h : FaultReason i s cause info) :
    cause ≠ .fetchOutOfRange := by
  cases h <;> nofun

/-- Taking a fault with a record that describes the state keeps the invariant: nothing but the record
changes (R103). -/
theorem State.Inv.takeFault {o : Option Byte} (h : s.Inv) (hr : s.status = .running)
    (hd : ({ cause := cause, fpc := s.pc, opcode := o, info := info } : FaultRecord).describes s) :
    (s.takeFault cause o info).Inv := by
  obtain ⟨hh, -⟩ := (State.status_running_iff s).mp hr
  refine ⟨h.memory, h.pcBound, h.oneFlag, ?_, h.haltedAt, ?_⟩
  · simp [hh]
  · intro r hr
    cases hr
    exact hd

/-- An instruction's fault keeps the invariant. -/
theorem State.Inv.of_takesFault (h : s.Inv) (hi : s.AtInstr i) (ht : TakesFault i s t) : t.Inv := by
  obtain ⟨cause, info, hf, rfl⟩ := ht
  have hp := hi.2.1
  refine h.takeFault hi.1 ⟨rfl, hf.infoFits _ _, ?_⟩
  rw [if_neg (by omega)]
  exact ⟨hf.cause_ne_fetchOutOfRange, congrArg some hi.opcodeAt_eq.symm⟩

/-- A completed instruction keeps the invariant. -/
theorem State.Inv.of_completes (h : s.Inv) (hi : s.AtInstr i) (hc : Completes i s t) : t.Inv := by
  have hp := hi.2.1
  obtain ⟨hh, hf⟩ := (State.status_running_iff s).mp hi.1
  have htf : t.fault = none := hc.fault.trans hf
  refine ⟨?_, ?_, ?_, by simp [htf], ?_, by simp [htf]⟩
  · obtain hm | ⟨v, -, hm, -⟩ := hc.mem <;> rw [hm]
    · exact h.memory
    · exact Memory.wf_write h.memory _ _
  · have := hc.pc
    omega
  · obtain hfl | ⟨-, -, x, y, -, hfl⟩ := hc.flags <;> rw [hfl]
    · exact h.oneFlag
    · exact compareFlags_atMostOne x y
  · obtain ⟨rfl, rfl⟩ | ⟨-, hth⟩ := hc.halt
    · exact fun _ => ⟨hp, hi.opcodeAt_eq⟩
    · simp [hth, hh]

/-- Settles O18: a step is a fault whose record describes the state it leaves, or an instruction that
completes; both keep the invariant. -/
theorem everyStepKeepsTheInvariant : Obligations.EveryStepKeepsTheInvariant := by
  intro s t h hst
  obtain ⟨hr, ⟨hp, rfl⟩ | ⟨hp, -, rfl⟩ | ⟨i, hi, he⟩⟩ := step_cases hst
  · refine h.takeFault hr ⟨rfl, rfl, ?_⟩
    rw [if_pos (by omega)]
    exact ⟨rfl, rfl⟩
  · refine h.takeFault hr ⟨rfl, rfl, ?_⟩
    rw [if_neg (by omega)]
    exact ⟨nofun, rfl⟩
  · exact (exec_cases he).elim (h.of_takesFault hi) (h.of_completes hi)

/-! ### Reset -/

/-- After reset memory holds the image, and 0 beyond it (10_state.md R36). -/
theorem State.memRead_resetWith (g : Vector Byte 7) {image : List Byte} (h : image.length ≤ 256)
    (a : Addr) : (State.resetWith g image).memRead a = image.getD a.toNat 0 := by
  simp only [State.memRead, State.resetWith, Memory.read_load [] image 0 a (by omega), Nat.zero_le,
    true_and, Nat.zero_add, Nat.sub_zero]
  split
  · rfl
  · rename_i ha
    exact (List.getD_eq_default _ _ (Nat.not_lt.mp ha)).symm

/-- After reset R0..R6 are `GPR_INIT` (R36). -/
theorem State.reg_resetWith (g : Vector Byte 7) (image : List Byte) (k : Fin 7) :
    (State.resetWith g image).reg (Fin.castSucc k) = g[k] :=
  Vector.getElem_push_lt k.isLt

/-- After reset SP is 0xF4 (R36). -/
theorem State.sp_resetWith (g : Vector Byte 7) (image : List Byte) :
    (State.resetWith g image).sp = 0xF4#8 :=
  Vector.getElem_push_eq ..

/-- A reset with an image that fits memory is obeyed in every state (70_reset_and_hazards.md R113,
R116). -/
theorem serve_reset (g : Vector Byte 7) {image : List Byte} (s : State) (h : image.length ≤ 256) :
    serve g (.reset image) s = .next (State.resetWith g image) :=
  if_pos h

/-- A request that is answered with a state is a step, or a reset to an image. -/
theorem serve_cases {g : Vector Byte 7} {q : HostRequest} (h : serve g q s = .next t) :
    step s = .next t ∨ ∃ image, q = .reset image ∧ t = State.resetWith g image := by
  cases q with
  | step => exact .inl h
  | reset image =>
    simp only [serve] at h
    split at h <;> cases h
    exact .inr ⟨image, rfl, rfl⟩

/-- FL at reset is 0 as a byte (R36). -/
theorem Flags.toByte_clear : Flags.clear.toByte = 0#8 := by decide

/-- Settles O15: the registers and memory by their lemmas, every other field by its definition. -/
theorem resetAppliesTheEntryContract : Obligations.ResetAppliesTheEntryContract :=
  fun g image s h => ⟨State.resetWith g image, serve_reset g s h, State.memRead_resetWith g h, rfl,
    State.sp_resetWith g image, State.reg_resetWith g image, rfl, Flags.toByte_clear,
    rfl, rfl, rfl, rfl⟩

/-! ### The halt flag -/

/-- HLT has no fault (45_halt.md R98). -/
theorem not_takesFault_hlt : ¬ TakesFault .hlt s t := by
  rintro ⟨_, _, hf, _⟩
  cases hf with
  | badA _ hi => cases hi
  | badB _ _ hi => simp at hi
  | pushAtZero _ hi => simp at hi
  | retAtTop hi => cases hi
  | popAtTop _ hi => cases hi

/-- Settles O42: a fault leaves the halt flag, and of the instructions that complete HLT alone writes
it. -/
theorem onlyHltSetsTheHaltFlag : Obligations.OnlyHltSetsTheHaltFlag := by
  refine ⟨fun s t h hh => ?_, fun s t hh h => ?_, fun g q s t h hh => ?_⟩
  · obtain ⟨c, o, hn, rfl⟩ | ⟨i, hi, hf | hc⟩ := step_outcomes h
    · simp [hh, hn]
    · have hne : ¬ s.AtInstr .hlt := fun h => not_takesFault_hlt (hi.unique h ▸ hf)
      obtain ⟨_, _, _, rfl⟩ := hf
      simp [hh, hne]
    · obtain ⟨rfl, rfl⟩ | ⟨hne, hth⟩ := hc.halt
      · simp [hi]
      · have hne : ¬ s.AtInstr .hlt := fun h => hne (hi.unique h)
        simp [hth, hh, hne]
  · simp [halt_eq_false_of_step h] at hh
  · obtain h | ⟨image, rfl, rfl⟩ := serve_cases h
    · simp [halt_eq_false_of_step h] at hh
    · exact ⟨image, rfl, rfl⟩

/-! ### Who writes FL -/

/-- CMP takes one of its faults, or FL is the result of a comparison (41_alu.md R84). -/
theorem execCmp_outcomes {a b : Byte} (h : exec (.cmp a b) s = .next t) :
    TakesFault (.cmp a b) s t ∨ ∃ x y, t.flags = compareFlags x y := by
  refine (withRegA_next (i := .cmp a b) rfl h).elim .inl fun ⟨ra, ha, hk⟩ => ?_
  refine (withRegB_next (i := .cmp a b) (.inr (.inr rfl)) (reg_le ha) hk).imp id fun ⟨rb, _, hk⟩ => ?_
  cases hk
  exact ⟨s.reg ra, s.reg rb, rfl⟩

/-- An instruction's fault leaves the block Faulted. -/
theorem TakesFault.status_faulted (h : TakesFault i s t) : t.status = .faulted := by
  obtain ⟨_, _, _, rfl⟩ := h
  exact (State.status_faulted_iff _).mpr rfl

/-- Settles O47: a fault leaves FL, of the instructions that complete CMP alone writes it, and what CMP
writes is a comparison's result. -/
theorem onlyCmpWritesFlags : Obligations.OnlyCmpWritesFlags := by
  refine ⟨fun s t h hne => ?_, fun s t a b hi h hr => ?_⟩
  · obtain ⟨c, o, -, rfl⟩ | ⟨i, hi, ⟨_, _, _, rfl⟩ | hc⟩ := step_outcomes h
    · exact absurd rfl hne
    · exact absurd rfl hne
    · obtain hf | ⟨a, b, _, _, rfl, _⟩ := hc.flags
      · exact absurd hf hne
      · exact ⟨a, b, hi⟩
  · obtain hf | ⟨x, y, hfl⟩ := execCmp_outcomes (step_of_atInstr hi ▸ h)
    · exact nomatch hr.symm.trans hf.status_faulted
    · rw [hfl]
      exact compareFlags_count x y

/-! ### Who reads FL -/

/-- SP is no part of FL. -/
theorem State.sp_setFlags (s : State) (f : Flags) : (s.setFlags f).sp = s.sp := rfl

/-- POP's load does not read FL, and leaves it. -/
theorem State.loadTop_setFlags (s : State) (f : Flags) (r : Reg) :
    (s.setFlags f).loadTop r = (s.loadTop r).setFlags f := rfl

/-- The result `r'`, of a state that is `s` but for holding `f` in FL, agrees with the result `r` of
`s`: it differs at most in FL, where it holds what `r` holds or, if `r` kept FL, has kept `f`. -/
def AgreeUpToFlags (f : Flags) (s : State) (r r' : Result) : Prop :=
  ∀ t, r = .next t → ∃ g, r' = .next (t.setFlags g) ∧ (g = t.flags ∨ (t.flags = s.flags ∧ g = f))

section AgreeUpToFlags

variable {f : Flags} {u : State} {k k' : Reg → Result}

/-- A rule that leaves FL alone and does not read it. -/
theorem AgreeUpToFlags.of_kept (h : u.flags = s.flags) :
    AgreeUpToFlags f s (.next u) (.next (u.setFlags f)) := by
  rintro t ⟨⟩
  exact ⟨f, rfl, .inr ⟨h, rfl⟩⟩

/-- A rule that overwrites FL. -/
theorem AgreeUpToFlags.of_overwritten : AgreeUpToFlags f s (.next u) (.next u) := by
  rintro t ⟨⟩
  exact ⟨u.flags, rfl, .inl rfl⟩

/-- The operand check does not read FL (40_engine.md R73). -/
theorem AgreeUpToFlags.withReg (op : Op) (slot : OperandSlot) (v : Byte)
    (h : ∀ r, AgreeUpToFlags f s (k r) (k' r)) :
    AgreeUpToFlags f s (withReg op slot v s k) (withReg op slot v (s.setFlags f) k') := by
  unfold Machine.withReg
  split
  · exact .of_kept rfl
  · exact h _

/-- A jump taken alike in both states. -/
theorem AgreeUpToFlags.branch (taken : Bool) (r : Reg) :
    AgreeUpToFlags f s (branch taken r s) (branch taken r (s.setFlags f)) := by
  cases taken <;> exact .of_kept rfl

end AgreeUpToFlags

/-- The rule of every instruction gives agreeing results whatever FL holds, but that JEQ and JNE read
E (10_state.md R29). -/
theorem exec_setFlags_agree (i : Instr) (s : State) (f : Flags)
    (hf : f.e = s.flags.e ∨ ∀ a, i ≠ .jeq a ∧ i ≠ .jne a) :
    AgreeUpToFlags f s (exec i s) (exec i (s.setFlags f)) := by
  cases i with
  | hlt => exact .of_kept rfl
  | ret =>
    simp only [exec, execRet, State.pop_eq, State.sp_setFlags]
    by_cases hs : s.sp.toNat = 255 <;> simp only [hs, if_true, if_false] <;> exact .of_kept rfl
  | push a =>
    refine .withReg _ _ _ fun r => ?_
    simp only [State.spDec_eq, State.sp_setFlags]
    by_cases hs : s.sp.toNat = 0 <;> simp only [hs, if_true, if_false] <;> exact .of_kept rfl
  | pop a =>
    refine .withReg _ _ _ fun r => ?_
    simp only [State.spInc_eq, State.loadTop_setFlags, State.sp_setFlags]
    by_cases hs : (s.loadTop r).sp.toNat = 255 <;> simp only [hs, if_true, if_false] <;>
      exact .of_kept rfl
  | prn a => exact .withReg _ _ _ fun r => .of_kept rfl
  | call a =>
    refine .withReg _ _ _ fun r => ?_
    simp only [State.push_eq, State.sp_setFlags]
    by_cases hs : s.sp.toNat = 0 <;> simp only [hs, if_true, if_false] <;> exact .of_kept rfl
  | jmp a => exact .withReg _ _ _ fun r => .of_kept rfl
  | jeq a =>
    have he : f.e = s.flags.e := hf.resolve_right fun h => (h a).1 rfl
    refine .withReg _ _ _ fun r => ?_
    rw [State.setFlags_flags, he]
    exact .branch _ r
  | jne a =>
    have he : f.e = s.flags.e := hf.resolve_right fun h => (h a).2 rfl
    refine .withReg _ _ _ fun r => ?_
    rw [State.setFlags_flags, he]
    exact .branch _ r
  | ldi a b => exact .withReg _ _ _ fun r => .of_kept rfl
  | add a b => exact .withReg _ _ _ fun ra => .withReg _ _ _ fun rb => .of_kept rfl
  | mul a b => exact .withReg _ _ _ fun ra => .withReg _ _ _ fun rb => .of_kept rfl
  | cmp a b => exact .withReg _ _ _ fun ra => .withReg _ _ _ fun rb => .of_overwritten

/-- A step gives agreeing results whatever L and G hold (R29). -/
theorem step_setFlags_agree {f : Flags} (he : f.e = s.flags.e) :
    AgreeUpToFlags f s (step s) (step (s.setFlags f)) := by
  intro t h
  obtain ⟨hr, ⟨hp, rfl⟩ | ⟨hp, hd, rfl⟩ | ⟨i, hi, h⟩⟩ := step_cases h
  · exact ⟨f, step_of_window_out (s := s.setFlags f) hr hp, .inr ⟨rfl, rfl⟩⟩
  · exact ⟨f, step_of_unknown (s := s.setFlags f) hr hp hd, .inr ⟨rfl, rfl⟩⟩
  · rw [step_of_atInstr (s := s.setFlags f) hi]
    exact exec_setFlags_agree i s f (.inl he) t h

/-- Settles O48: with E kept, the two results agree up to FL, and each holds the same E, kept or
written alike. -/
theorem lessAndGreaterAreNeverRead : Obligations.LessAndGreaterAreNeverRead := by
  intro s t l g h
  obtain ⟨f, hf, hE⟩ := step_setFlags_agree (f := { s.flags with l := l, g := g }) rfl t h
  refine ⟨t.setFlags f, hf, rfl, ?_⟩
  obtain rfl | ⟨ht, rfl⟩ := hE
  · rfl
  · exact (congrArg Flags.e ht).symm

/-- Settles O49: every rule but those of JEQ and JNE gives results that agree up to FL, whatever FL
holds. -/
theorem onlyJeqAndJneReadEqual : Obligations.OnlyJeqAndJneReadEqual := by
  intro i s t f hi h
  obtain ⟨g, hg, -⟩ := exec_setFlags_agree i s f (.inr hi) t h
  exact ⟨t.setFlags g, hg, rfl⟩

end Sys2Proof.Machine
end

section
/-! Memory (20_memory.md): the byte a PUSH or a CALL stores at SP - 1, and the fetch that reads it. -/

namespace Sys2Proof.Machine

variable {s t : State} {a : Byte} {r : Reg}

/-! ### The address and the bytes of a store -/

/-- The address a push stores at: SP - 1 does not wrap (43_stack.md R88). -/
theorem State.toNat_sp_sub_one (hs : s.sp.toNat ≠ 0) : (s.sp - 1).toNat = s.sp.toNat - 1 := by
  bv_omega

/-- At a pc the fetch rule admits, the return address fits a byte (44_control.md R92). -/
theorem toNat_returnAddress (hp : s.pc ≤ 253) : (returnAddress s).toNat = s.pc + 2 := by
  rw [returnAddress, BitVec.toNat_ofNat]
  omega

/-- A read at the address just written returns the byte (R46). -/
@[simp] theorem State.memRead_memWrite_self (s : State) (x : Addr) (v : Byte) :
    (s.memWrite x v).memRead x = v := Memory.read_write_self ..

/-- PUSH of a register at an SP that is not 0: the decrement, the store of the register as it is after
the decrement, and the next pc (R90). -/
theorem execPush_eq (ha : a.toNat = r.val) (hs : s.sp.toNat ≠ 0) :
    exec (.push a) s = .next (((s.setSp (s.sp - 1)).memWrite (s.sp - 1)
      (if r = 7 then s.sp - 1 else s.reg r)).advance 2) := by
  simp only [exec, execPush, withRegA, withReg_of_eq ha, State.spDec_eq, if_neg hs, State.sp_setSp,
    State.reg_setSp]

/-- CALL of a register at an SP that is not 0: the decrement, the store of the return address, and the
pc at the register as it is after the decrement (R92). -/
theorem execCall_eq (ha : a.toNat = r.val) (hs : s.sp.toNat ≠ 0) :
    exec (.call a) s = .next (((s.setSp (s.sp - 1)).memWrite (s.sp - 1) (returnAddress s)).setPc
      (if r = 7 then s.sp - 1 else s.reg r).toNat) := by
  simp only [exec, execCall, withRegA, withReg_of_eq ha, State.push_eq, if_neg hs,
    State.reg_congr (State.memWrite_regs ..), State.reg_setSp]

/-- A completed PUSH leaves the register's byte at SP - 1. -/
theorem execPush_stores (ha : a.toNat = r.val) (hs : s.sp.toNat ≠ 0) :
    ∃ t, exec (.push a) s = .next t ∧ t.pc = s.pc + 2 ∧
      t.memRead (s.sp - 1) = (if r = 7 then s.sp - 1 else s.reg r) :=
  ⟨_, execPush_eq ha hs, rfl, State.memRead_memWrite_self ..⟩

/-- A completed CALL leaves the return address at SP - 1. -/
theorem execCall_stores (ha : a.toNat = r.val) (hs : s.sp.toNat ≠ 0) :
    ∃ t, exec (.call a) s = .next t ∧ t.pc = (if r = 7 then s.sp - 1 else s.reg r).toNat ∧
      t.memRead (s.sp - 1) = returnAddress s :=
  ⟨_, execCall_eq ha hs, rfl, State.memRead_memWrite_self ..⟩

/-! ### The next fetch -/

/-- Place `k` of a fetched window is the byte of memory at pc + k (20_memory.md R51). -/
theorem fetch_getD {k : Nat} {x : Addr} (hp : t.pc ≤ 253) (hk : k < 3) (hx : t.pc + k = x.toNat) :
    ∃ w, fetch t = some w ∧ [w.ir, w.a, w.b].getD k 0 = t.memRead x := by
  obtain rfl : x = BitVec.ofNat 8 (t.pc + k) := by rw [hx, BitVec.ofNat_toNat, BitVec.setWidth_eq]
  refine ⟨_, (fetch_eq t).trans (if_neg (Nat.not_lt.mpr hp)), ?_⟩
  match k, hk with
  | 0, _ => rfl
  | 1, _ => rfl
  | 2, _ => rfl

/-- Settles O32: the store is at SP - 1, and the next fetch reads the memory the store left. -/
theorem nextFetchSeesThePushedByte : Obligations.NextFetchSeesThePushedByte := by
  intro a r s k ha hs hk
  have hsp := State.toNat_sp_sub_one hs
  refine ⟨fun hp hx => ?_, fun hp htarget hx => ?_⟩
  · obtain ⟨t, ht, hpc, hread⟩ := execPush_stores ha hs
    obtain ⟨w, hw, hbyte⟩ := fetch_getD (t := t) (x := s.sp - 1) (by omega) hk (by omega)
    exact ⟨t, w, ht, hw, hbyte.trans hread⟩
  · obtain ⟨t, ht, hpc, hread⟩ := execCall_stores ha hs
    obtain ⟨w, hw, hbyte⟩ := fetch_getD (t := t) (x := s.sp - 1) (by omega) hk (by omega)
    refine ⟨t, w, ht, hw, ?_⟩
    rw [hbyte, hread, toNat_returnAddress hp]

/-! ### Who writes memory -/

/-- A completed instruction that changes a byte is a PUSH or a CALL, and the byte is the one at the
decremented SP (R42). -/
theorem Completes.of_memRead_ne {i : Instr} {x : Addr} (hc : Completes i s t)
    (hx : t.memRead x ≠ s.memRead x) :
    (∃ a, i = .push a ∨ i = .call a) ∧ s.sp.toNat ≠ 0 ∧ x = s.sp - 1 ∧ t.sp = x := by
  obtain hm | ⟨v, hs, hm, hsp, hi⟩ := hc.mem
  · exact absurd (State.memRead_congr hm x) hx
  · have hxs : x = s.sp - 1 := by
      by_contra hne
      exact hx ((congrArg (Memory.read · x) hm).trans (Memory.read_write_of_ne _ _ hne))
    exact ⟨hi, hs, hxs, hsp.trans hxs.symm⟩

/-- Settles O50: a fault leaves memory, and of the instructions that complete PUSH and CALL alone write
it, at SP - 1; no address is protected from their store. -/
theorem memoryIsWrittenOnlyByPushAndCall : Obligations.MemoryIsWrittenOnlyByPushAndCall := by
  refine ⟨fun s t x h hx => ?_, fun s a r ha hs => ⟨fun hi => ?_, fun hi => ?_⟩⟩
  · obtain ⟨_, _, -, rfl⟩ | ⟨i, hi, ⟨_, _, _, rfl⟩ | hc⟩ := step_outcomes h
    · exact absurd rfl hx
    · exact absurd rfl hx
    · obtain ⟨⟨a, ha⟩, hs, hxs, hsp⟩ := hc.of_memRead_ne hx
      refine ⟨⟨a, ha.elim (fun h => .inl (h ▸ hi)) (fun h => .inr (h ▸ hi))⟩, hs, ?_, hsp⟩
      rw [hxs, State.toNat_sp_sub_one hs]
  · obtain ⟨t, ht, -, hread⟩ := execPush_stores ha hs
    exact ⟨t, (step_of_atInstr hi).trans ht, hread⟩
  · obtain ⟨t, ht, -, hread⟩ := execCall_stores ha hs
    refine ⟨t, (step_of_atInstr hi).trans ht, ?_⟩
    rw [hread, toNat_returnAddress hi.2.1]

end Sys2Proof.Machine
end

section
/-! Encoding (30_encoding.md): the bytes of a decoded instruction, counted by the two high bits of its
opcode byte. -/

namespace Sys2Proof

variable {ir a b : Byte} {i : Instr}

/-- The length an opcode byte gives, by division: bits 7:6 are the quotient by 64 (R55). -/
theorem lengthFromOpcode_eq (ir : Byte) : lengthFromOpcode ir = 1 + ir.toNat / 64 := by
  rw [lengthFromOpcode, BitVec.extractLsb'_toNat, Nat.shiftRight_eq_div_pow]
  omega

/-- The two high bits of a map byte count the operands of its format (R58). -/
theorem Op.opcode_div_eq (op : Op) : op.opcode.toNat / 64 = op.format.length - 1 := by
  rw [Laws.EncodedLength.format_length_eq, lengthFromOpcode_eq, Nat.add_sub_cancel_left]

/-- No row of the opcode map has 0b11 in the two high bits of its byte (R55, R57). -/
theorem Op.opcode_div_le (op : Op) : op.opcode.toNat / 64 ≤ 2 := by
  rw [op.opcode_div_eq]
  cases op <;> decide

/-- A byte that decodes to an instruction names at most two operands. -/
theorem div_le_of_decode (h : decode ir a b = .instr i) : ir.toNat / 64 ≤ 2 :=
  opcode_of_decode h ▸ i.op.opcode_div_le

/-- The operands of a decoded instruction are as many of the bytes after its opcode as the two high
bits of the opcode count (R55, R60). -/
theorem operands_eq_take_of_decode (h : decode ir a b = .instr i) :
    i.operands = [a, b].take (ir.toNat / 64) := by
  obtain ⟨hone, htwo⟩ := operands_of_decode h
  rw [opcode_of_decode h, Op.opcode_div_eq]
  cases i with
  | hlt | ret => rfl
  | push x | pop x | prn x | call x | jmp x | jeq x | jne x => exact hone x rfl ▸ rfl
  | ldi x y | add x y | mul x y | cmp x y =>
    obtain ⟨rfl, rfl⟩ := htwo x y rfl
    rfl

/-- The bytes of a decoded instruction are its opcode byte and the operand bytes this byte counts. -/
theorem encode_of_decode (h : decode ir a b = .instr i) :
    encode i = ir :: [a, b].take (ir.toNat / 64) := by
  rw [encode, ← opcode_of_decode h, operands_eq_take_of_decode h]

/-- Settles O3: the encoding is the opcode byte and the operand bytes it counts, and 0b11 counts more
than a byte that decodes can. -/
theorem lengthIsGivenByTheTwoHighBits : Obligations.LengthIsGivenByTheTwoHighBits := by
  refine ⟨fun ir a b i h => ?_, fun ir a b h3 => ?_⟩
  · have hle := div_le_of_decode h
    have hlen : (encode i).length = 1 + ir.toNat / 64 := by
      rw [encode_of_decode h, List.length_cons, List.length_take_of_le hle, Nat.add_comm]
    exact ⟨hlen, by omega, encode_of_decode h⟩
  · cases hd : decode ir a b with
    | unknownOpcode x => rw [eq_of_decode_unknown hd]
    | instr i =>
      have hle := div_le_of_decode hd
      omega

end Sys2Proof
end

section
/-! The engine (40_engine.md): every step of a Running block answers a next state, and what that state
is; the ends of a run; the invariant along a run; the registers a step writes. -/

namespace Sys2Proof.Machine

variable {i : Instr} {s t : State} {a : Byte} {r r' : Reg}

/-- Settles O5: `step_of_atInstr`, its three hypotheses being those of `State.AtInstr`. -/
theorem stepRunsTheDecodedInstruction : Obligations.StepRunsTheDecodedInstruction :=
  fun _ _ hr hp hd => step_of_atInstr ⟨hr, hp, hd⟩

/-! ### A Running block always steps -/

/-- The operand check answers a next state when the rule it guards does (R73). -/
theorem withReg_answers {k : Reg → Result} (op : Op) (slot : OperandSlot) (v : Byte) (s : State)
    (hk : ∀ r, ∃ t, k r = .next t) : ∃ t, withReg op slot v s k = .next t := by
  obtain ⟨r, -, he⟩ | ⟨-, hf⟩ := withReg_cases op slot v s k
  · exact he ▸ hk r
  · exact ⟨_, hf⟩

/-- The rule of every instruction answers a next state: a fault of the hardware is one too (R76,
60_exceptions.md R100). -/
theorem exec_answers (i : Instr) (s : State) : ∃ t, exec i s = .next t := by
  cases i with
  | hlt => exact ⟨_, rfl⟩
  | ret =>
    simp only [exec, execRet]
    split <;> exact ⟨_, rfl⟩
  | push a | pop a | call a =>
    refine withReg_answers _ _ _ _ fun r => ?_
    split <;> exact ⟨_, rfl⟩
  | prn a | jmp a | ldi a b => exact withReg_answers _ _ _ _ fun r => ⟨_, rfl⟩
  | jeq a | jne a =>
    refine withReg_answers _ _ _ _ fun r => ?_
    unfold branch
    split <;> exact ⟨_, rfl⟩
  | add a b | mul a b | cmp a b =>
    exact withReg_answers _ _ _ _ fun ra => withReg_answers _ _ _ _ fun rb => ⟨_, rfl⟩

/-- A step of a Running block answers a next state (R75, R76). -/
theorem step_answers (hr : s.status = .running) : ∃ t, step s = .next t := by
  by_cases hp : 253 < s.pc
  · exact ⟨_, step_of_window_out hr hp⟩
  · have hp := Nat.not_lt.mp hp
    cases hd : decode s.opcodeAt s.firstAt s.secondAt with
    | unknownOpcode x => exact ⟨_, step_of_unknown hr hp hd⟩
    | instr i => exact step_of_atInstr ⟨hr, hp, hd⟩ ▸ exec_answers i s

/-- A completed instruction leaves a Running block Halted, if it is HLT and then only the halt flag
changed, and otherwise Running. -/
theorem Completes.status (hc : Completes i s t) (hr : s.status = .running) :
    (i = .hlt ∧ t = s.setHalt ∧ t.status = .halted) ∨ t.status = .running := by
  obtain ⟨hh, hf⟩ := (State.status_running_iff s).mp hr
  obtain ⟨hi, rfl⟩ | ⟨-, hth⟩ := hc.halt
  · exact .inl ⟨hi, rfl, (State.status_halted_iff _).mpr ⟨rfl, hf⟩⟩
  · exact .inr ((State.status_running_iff t).mpr ⟨hth.trans hh, hc.fault.trans hf⟩)

/-- A completed instruction leaves every byte but the one at SP - 1, and that one too unless it is a
PUSH or a CALL (20_memory.md R42). -/
theorem Completes.memRead_eq {y : Addr} (hc : Completes i s t)
    (hy : y ≠ s.sp - 1 ∨ ∀ a, i ≠ .push a ∧ i ≠ .call a) : t.memRead y = s.memRead y := by
  by_contra hne
  obtain ⟨⟨a, ha⟩, -, hsp, -⟩ := hc.of_memRead_ne hne
  obtain hy | hi := hy
  · exact hy hsp
  · exact ha.elim (hi a).1 (hi a).2

/-- Settles O10: the step answers, and it is a fault, which leaves a record, or an instruction that
completes, which is HLT or leaves the block Running. -/
theorem runningStepHasOneOfThreeOutcomes : Obligations.RunningStepHasOneOfThreeOutcomes := by
  intro s hr
  obtain ⟨t, ht⟩ := step_answers hr
  refine ⟨t, ht, ?_⟩
  obtain ⟨_, _, -, rfl⟩ | ⟨i, hi, hf | hc⟩ := step_outcomes ht
  · exact .inr (.inr ⟨(State.status_faulted_iff _).mpr rfl, _, rfl⟩)
  · have hst := hf.status_faulted
    exact .inr (.inr ⟨hst, Option.isSome_iff_exists.mp ((State.status_faulted_iff t).mp hst)⟩)
  · obtain ⟨rfl, heq, hst⟩ | hst := hc.status hr
    · exact .inr (.inl ⟨hst, hi, heq⟩)
    · exact .inl ⟨hst, i, hi, hc.regs, fun _ => hc.memRead_eq, hc.out⟩

/-! ### The ends of a run -/

/-- No step is defined from a Halted block (R77). -/
theorem step_of_halted (h : s.status = .halted) : step s = .fault .stepWhileHalted := by
  simp [step, h]

/-- No step is defined from a Faulted block (R77). -/
theorem step_of_faulted (h : s.status = .faulted) : step s = .fault .stepWhileFaulted := by
  simp [step, h]

/-- A reset leaves the block Running, with any image (10_state.md R36). -/
theorem State.status_resetWith (g : Vector Byte 7) (image : List Byte) :
    (State.resetWith g image).status = .running := rfl

/-- Settles O11: a request that is answered is a step, which only a Running block has, or a reset. -/
theorem haltedAndFaultedAreFinal : Obligations.HaltedAndFaultedAreFinal := by
  refine ⟨fun _ => step_of_halted, fun _ => step_of_faulted, fun g q s t hne h => ?_⟩
  obtain hst | ⟨image, rfl, rfl⟩ := serve_cases h
  · exact absurd (step_cases hst).1 hne
  · exact ⟨image, rfl, rfl, State.status_resetWith g image⟩

/-- A run stays at a state that is not Running (R77, R78). -/
theorem run_of_not_running (h : s.status ≠ .running) (n : Nat) : run n s = s := by
  cases n with
  | zero => rfl
  | succ n =>
    cases hs : s.status with
    | running => exact absurd hs h
    | halted => simp [run, step_of_halted hs]
    | faulted => simp [run, step_of_faulted hs]

/-- A run of `n + m` steps is one of `n` steps and then one of `m`. -/
theorem run_add (n m : Nat) (s : State) : run (n + m) s = run m (run n s) := by
  induction n generalizing s with
  | zero => simp [run]
  | succ n ih =>
    rw [Nat.succ_add]
    by_cases hr : s.status = .running
    · obtain ⟨t, ht⟩ := step_answers hr
      simp only [run, ht, ih]
    · simp only [run_of_not_running hr]

/-- A run that has ended by some number of steps is at the same state after any greater number. -/
theorem run_eq_of_le {n m : Nat} (hn : (run n s).status ≠ .running) (h : n ≤ m) :
    run m s = run n s := by
  obtain ⟨d, rfl⟩ := Nat.exists_eq_add_of_le h
  rw [run_add, run_of_not_running hn]

/-- A run ends at one state only. -/
theorem run_end_unique {n m : Nat} (hn : (run n s).status ≠ .running)
    (hm : (run m s).status ≠ .running) : run n s = run m s :=
  (Nat.le_total n m).elim (fun h => (run_eq_of_le hn h).symm) (run_eq_of_le hm)

/-- A run that has an end halts or faults (R79). -/
theorem halts_or_faults_of_not_diverges (h : ¬ Diverges s) : HaltsNormally s ∨ EndsInFault s := by
  obtain ⟨n, hn⟩ := not_forall.mp h
  cases hs : (run n s).status with
  | running => exact absurd hs hn
  | halted => exact .inl ⟨n, hs⟩
  | faulted => exact .inr ⟨n, hs⟩

/-- Settles O14: a run that does not go on for ever has an end, and the state it ends at, being one,
has one status. -/
theorem everyRunHasExactlyOneEnd : Obligations.EveryRunHasExactlyOneEnd := by
  intro s
  refine ⟨?_, ?_, ?_, ?_⟩
  · by_cases hd : Diverges s
    · exact .inr (.inr hd)
    · exact (halts_or_faults_of_not_diverges hd).imp id .inl
  · rintro ⟨⟨n, hn⟩, m, hm⟩
    have heq : run n s = run m s := run_end_unique (by simp [hn]) (by simp [hm])
    simp [heq, hm] at hn
  all_goals
    rintro ⟨⟨n, hn⟩, hd⟩
    exact nomatch hn.symm.trans (hd n)

/-! ### The invariant along a run -/

/-- Every state a reset leaves satisfies the invariant: memory is an image loaded over zeros, and the
block is Running with FL clear (10_state.md R36). -/
theorem State.inv_resetWith (g : Vector Byte 7) (image : List Byte) :
    (State.resetWith g image).Inv where
  memory := Memory.wf_load Memory.wf_nil 0 image
  pcBound := Nat.zero_le 256
  oneFlag := rfl
  oneEnd := nofun
  haltedAt := nofun
  record := nofun

/-- The invariant holds of every state that steps lead to from one where it holds. -/
theorem State.Inv.of_reaches (hs : s.Inv) (h : Reaches s t) : t.Inv := by
  induction h with
  | refl s => exact hs
  | head hst _ ih => exact ih (everyStepKeepsTheInvariant _ _ hs hst)

/-- Settles O19: the invariant holds after reset, and every step keeps it. -/
theorem everyReachableStateHasTheInvariant : Obligations.EveryReachableStateHasTheInvariant :=
  fun g image _ _ h => (State.inv_resetWith g image).of_reaches h

/-! ### The registers a step writes -/

/-- Two different registers are written by POP alone: its operand and SP (10_state.md R24). -/
theorem eq_pop_of_writesReg (hne : r ≠ r') (h : writesReg i r = true) (h' : writesReg i r' = true) :
    ∃ a, i = .pop a ∧ ((a.toNat = r.val ∧ r' = 7) ∨ (r = 7 ∧ a.toNat = r'.val)) := by
  cases i with
  | hlt | prn a | jmp a | jeq a | jne a | cmp a b => exact nomatch h
  | ret | push a | call a => exact absurd ((eq_of_beq h).trans (eq_of_beq h').symm) hne
  | ldi a b | add a b | mul a b =>
    exact absurd (Fin.ext ((eq_of_beq h).symm.trans (eq_of_beq h'))) hne
  | pop a =>
    simp only [writesReg, Bool.or_eq_true, beq_iff_eq] at h h'
    refine ⟨a, rfl, ?_⟩
    obtain h | rfl := h
    · obtain h' | rfl := h'
      · exact absurd (Fin.ext (h.symm.trans h')) hne
      · exact .inl ⟨h, rfl⟩
    · exact .inr ⟨rfl, h'.resolve_right hne.symm⟩

/-- A register that a step changes is one that its instruction writes, by the table of R24. -/
theorem writesReg_of_reg_ne (hi : s.AtInstr i) (h : step s = .next t) (hne : t.reg r ≠ s.reg r) :
    writesReg i r = true := by
  obtain ⟨_, _, _, rfl⟩ | hc := exec_cases (step_of_atInstr hi ▸ h)
  · exact absurd rfl hne
  · by_contra hw
    exact hne (hc.regs r (Bool.eq_false_of_not_eq_true hw))

/-- POP of a register where the SP after the load is not 255: the load, the increment of SP as it is
after the load, and the next pc (43_stack.md R91). -/
theorem execPop_eq (ha : a.toNat = r.val) (hs : (s.loadTop r).sp.toNat ≠ 255) :
    exec (.pop a) s = .next (((s.loadTop r).setSp ((s.loadTop r).sp + 1)).advance 2) := by
  simp only [exec, execPop, withRegA, withReg_of_eq ha, State.spInc_eq, if_neg hs]

/-- POP's load leaves SP when the register is not R7. -/
theorem State.sp_loadTop_of_ne (hr : r ≠ 7) : (s.loadTop r).sp = s.sp :=
  State.reg_setReg_of_ne _ _ hr.symm

/-- Settles O52: a step changes only registers that its instruction writes, and POP alone writes two;
a POP that completes leaves the loaded byte and the incremented SP. -/
theorem onlyPopWritesTwoRegisters : Obligations.OnlyPopWritesTwoRegisters := by
  refine ⟨fun s t i r r' hi h hne hr hr' => ?_, fun s a r hi ha hne hs => ?_⟩
  · exact eq_pop_of_writesReg hne (writesReg_of_reg_ne hi h hr) (writesReg_of_reg_ne hi h hr')
  · have hsp := State.sp_loadTop_of_ne (s := s) hne
    refine ⟨_, (step_of_atInstr hi).trans (execPop_eq ha (hsp ▸ hs)), ?_, ?_⟩
    · calc (((s.loadTop r).setSp ((s.loadTop r).sp + 1)).advance 2).reg r
          = (s.loadTop r).reg r := State.reg_setReg_of_ne _ _ hne
        _ = s.memRead s.sp := State.reg_setReg_self ..
    · rw [hsp]
      exact State.sp_setSp ..

end Sys2Proof.Machine
end

section
/-! Frames (41_alu.md, 42_load_output.md, 44_control.md, 45_halt.md): what one instruction leaves
unchanged whether it completes or takes its fault, and the fault record of an instruction that names
only registers. -/

namespace Sys2Proof

variable {i : Instr} {a b : Byte}

/-! ### Well-formed operands and faults -/

theorem isRegByte_iff : isRegByte a = true ↔ a.toNat ≤ 7 :=
  decide_eq_true_iff.trans Nat.lt_succ_iff

/-- The first operand of a well-formed instruction is a register. -/
theorem Instr.first_le_of_wf (hw : i.wf = true) (hi : i.operands.head? = some a) : a.toNat ≤ 7 := by
  cases i with
  | hlt | ret => exact nomatch hi
  | push | pop | prn | call | jmp | jeq | jne | ldi =>
    cases hi
    exact isRegByte_iff.mp hw
  | add | mul | cmp =>
    cases hi
    exact isRegByte_iff.mp (Bool.and_eq_true_iff.mp hw).1

/-- The second operand of a well-formed ADD, MUL or CMP is a register. -/
theorem Instr.second_le_of_wf (hw : i.wf = true) (hi : i = .add a b ∨ i = .mul a b ∨ i = .cmp a b) :
    b.toNat ≤ 7 := by
  obtain rfl | rfl | rfl := hi <;> exact isRegByte_iff.mp (Bool.and_eq_true_iff.mp hw).2

/-- The instructions that push or pop, and so can raise a stack fault (43_stack.md R88, R89). -/
def Instr.usesStack : Instr → Bool
  | .push _ | .pop _ | .call _ | .ret => true
  | .hlt | .prn _ | .jmp _ | .jeq _ | .jne _ | .ldi _ _ | .add _ _ | .mul _ _ | .cmp _ _ => false

namespace Machine

variable {s t : State}

/-- With register operands only (60_exceptions.md R101), the faults left are those of the stack. -/
theorem FaultReason.usesStack {cause : FaultCause} {info : FaultInfo}
    (h : FaultReason i s cause info) (hw : i.wf = true) : i.usesStack = true := by
  cases h with
  | badA a hi ha => exact absurd (Instr.first_le_of_wf hw hi) (Nat.not_le.mpr ha)
  | badB a b hi _ hb => exact absurd (Instr.second_le_of_wf hw hi) (Nat.not_le.mpr hb)
  | pushAtZero a hi => obtain rfl | rfl := hi <;> rfl
  | retAtTop hi => cases hi; rfl
  | popAtTop a hi => cases hi; rfl

/-! ### The frame of one instruction -/

/-- What an instruction leaves unchanged when it answers a next state, Faulted or not. -/
structure Frame (i : Instr) (s t : State) : Prop where
  regs  : ∀ r : Reg, writesReg i r = false → t.reg r = s.reg r
  mem   : ∀ x : Addr, x ≠ s.sp - 1 ∨ (∀ a, i ≠ .push a ∧ i ≠ .call a) → t.memRead x = s.memRead x
  flags : (∀ a b, i ≠ .cmp a b) → t.flags = s.flags
  out   : (∀ a, i ≠ .prn a) → t.out = s.out
  halt  : i ≠ .hlt → t.halt = s.halt
  fault : i.usesStack = false → i.wf = true → t.fault = s.fault

/-- Every instruction has its frame: a fault writes the record only, and a completed instruction
only what R24, R29, R30, R33 and R42 let it write. -/
theorem exec_frame (h : exec i s = .next t) : Frame i s t := by
  obtain ⟨cause, info, hf, rfl⟩ | hc := exec_cases h
  · refine ⟨fun _ _ => rfl, fun _ _ => rfl, fun _ => rfl, fun _ => rfl, fun _ => rfl,
      fun hi hw => ?_⟩
    exact absurd (hf.usesStack hw) (Bool.eq_false_iff.mp hi)
  · refine ⟨hc.regs, fun _ => hc.memRead_eq, fun hi => ?_, fun hi => ?_, fun hi => ?_,
      fun _ _ => hc.fault⟩
    · exact hc.flags.resolve_right fun ⟨a, b, _, _, hcmp, _⟩ => hi a b hcmp
    · exact hc.out.resolve_right fun ⟨a, _, hprn, _⟩ => hi a hprn
    · exact (hc.halt.resolve_left fun ⟨hhlt, _⟩ => hi hhlt).2

/-- Settles O43: the three write no register but `a` (R24), are no CMP, PRN, HLT, PUSH or CALL, and
do not use the stack. -/
theorem registerWritersFrame : Obligations.RegisterWritersFrame := by
  intro i a b s t hi h
  have F := exec_frame h
  obtain rfl | rfl | rfl := hi <;>
    exact ⟨fun r hr => F.regs r (beq_false_of_ne hr.symm), F.flags nofun, F.halt nofun, F.out nofun,
      fun x => F.mem x (.inr fun _ => ⟨nofun, nofun⟩), F.fault rfl⟩

/-- Settles O44: the six write no register (R24), are no PUSH or CALL and do not use the stack; of
them, a CMP is the given one, and so is a PRN. -/
theorem nonStoringFormsFrame : Obligations.NonStoringFormsFrame := by
  intro i a b s t hi h
  have F := exec_frame h
  obtain rfl | rfl | rfl | rfl | rfl | rfl := hi <;>
    exact ⟨fun r => F.regs r rfl, fun x => F.mem x (.inr fun _ => ⟨nofun, nofun⟩),
      fun hne => F.flags fun _ _ hcmp => hne (by cases hcmp <;> rfl),
      fun hne => F.out fun _ hprn => hne (by cases hprn <;> rfl), F.halt, F.fault rfl⟩

end Machine

end Sys2Proof
end

section
/-! Output (42_load_output.md R86, R87): which instruction appends to `out`, and that none reads
it. -/

namespace Sys2Proof.Machine

variable {i : Instr} {s t : State}

/-! ### Who writes the output -/

/-- PRN of a register: the byte is appended, and the next pc (R86). -/
theorem execPrn_eq {a : Byte} {r : Reg} (ha : a.toNat = r.val) (s : State) :
    exec (.prn a) s = .next ((s.emit (s.reg r)).advance 2) :=
  withReg_of_eq ha s _

/-- A step leaves the output or, at a PRN, appends the register's byte (R87): a fault leaves it, and
of the instructions that complete PRN alone writes it. -/
theorem out_of_step (h : step s = .next t) :
    t.out = s.out ∨
    ∃ (a : Byte) (r : Reg), s.AtInstr (.prn a) ∧ a.toNat = r.val ∧
      t.out = s.out ++ [s.reg r] := by
  obtain ⟨_, _, -, rfl⟩ | ⟨i, hi, ⟨_, _, _, rfl⟩ | hc⟩ := step_outcomes h
  · exact .inl rfl
  · exact .inl rfl
  · obtain ho | ⟨a, r, rfl, ha, ho⟩ := hc.out
    · exact .inl ho
    · exact .inr ⟨a, r, hi, ha, ho⟩

/-- A step takes nothing away from the output (R33, R87). -/
theorem out_prefix_of_step (h : step s = .next t) : s.out <+: t.out := by
  obtain ho | ⟨_, _, -, -, ho⟩ := out_of_step h
  · exact ho ▸ List.prefix_rfl
  · exact ho ▸ List.prefix_append ..

/-- A step that ends Faulted leaves the output: a completed instruction is not one (60_exceptions.md
R103). -/
theorem out_eq_of_step_faulted (h : step s = .next t) (hf : t.status = .faulted) :
    t.out = s.out := by
  obtain ⟨_, _, -, rfl⟩ | ⟨i, hi, ⟨_, _, _, rfl⟩ | hc⟩ := step_outcomes h
  · rfl
  · rfl
  · obtain ⟨-, -, hst⟩ | hst := hc.status hi.1 <;> exact nomatch hst.symm.trans hf

/-! ### No rule reads the output -/

/-- The state with another output and nothing else changed. -/
def State.withOut (s : State) (o : List Byte) : State := { s with out := o }

/-- SP is no part of the output. -/
theorem State.sp_withOut (s : State) (o : List Byte) : (s.withOut o).sp = s.sp := rfl

/-- POP's load does not read the output, and leaves it. -/
theorem State.loadTop_withOut (s : State) (o : List Byte) (r : Reg) :
    (s.withOut o).loadTop r = (s.loadTop r).withOut o := rfl

/-- The result `r'`, of a state that is `s` but for the output `o`, agrees with the result `r` of
`s`: both append the same bytes, and nothing else differs. -/
def AgreeUpToOut (o : List Byte) (s : State) (r r' : Result) : Prop :=
  ∀ t, r = .next t → ∃ bytes, t.out = s.out ++ bytes ∧ r' = .next (t.withOut (o ++ bytes))

section AgreeUpToOut

variable {o : List Byte} {u : State} {k k' : Reg → Result}

/-- A rule that appends to the output bytes that do not depend on it. -/
theorem AgreeUpToOut.of_appended {bytes : List Byte} (h : u.out = s.out ++ bytes) :
    AgreeUpToOut o s (.next u) (.next (u.withOut (o ++ bytes))) := by
  rintro t ⟨⟩
  exact ⟨bytes, h, rfl⟩

/-- A rule that leaves the output alone and does not read it. -/
theorem AgreeUpToOut.of_kept (h : u.out = s.out) :
    AgreeUpToOut o s (.next u) (.next (u.withOut o)) := by
  simpa using of_appended (o := o) (bytes := []) (h.trans (List.append_nil _).symm)

/-- Taking a fault does not read the output, and leaves it (60_exceptions.md R103). -/
theorem AgreeUpToOut.takeFault (c : FaultCause) (b : Option Byte) (d : FaultInfo) :
    AgreeUpToOut o s (.next (s.takeFault c b d)) (.next ((s.withOut o).takeFault c b d)) :=
  .of_kept rfl

/-- The operand check does not read the output (40_engine.md R73). -/
theorem AgreeUpToOut.withReg (op : Op) (slot : OperandSlot) (v : Byte)
    (h : ∀ r, AgreeUpToOut o s (k r) (k' r)) :
    AgreeUpToOut o s (withReg op slot v s k) (withReg op slot v (s.withOut o) k') := by
  unfold Machine.withReg
  split
  · exact .takeFault _ _ _
  · exact h _

/-- A jump does not read the output. -/
theorem AgreeUpToOut.branch (taken : Bool) (r : Reg) :
    AgreeUpToOut o s (branch taken r s) (branch taken r (s.withOut o)) := by
  cases taken <;> exact .of_kept rfl

end AgreeUpToOut

/-- The rule of every instruction gives agreeing results whatever the output holds (R87). -/
theorem exec_withOut_agree (i : Instr) (s : State) (o : List Byte) :
    AgreeUpToOut o s (exec i s) (exec i (s.withOut o)) := by
  cases i with
  | hlt => exact .of_kept rfl
  | ret =>
    simp only [exec, execRet, State.pop_eq, State.sp_withOut]
    by_cases hs : s.sp.toNat = 255 <;> simp only [hs, if_true, if_false] <;> exact .of_kept rfl
  | push a | call a =>
    refine .withReg _ _ _ fun r => ?_
    simp only [State.spDec_eq, State.push_eq, State.sp_withOut]
    by_cases hs : s.sp.toNat = 0 <;> simp only [hs, if_true, if_false] <;> exact .of_kept rfl
  | pop a =>
    refine .withReg _ _ _ fun r => ?_
    simp only [State.spInc_eq, State.loadTop_withOut, State.sp_withOut]
    by_cases hs : (s.loadTop r).sp.toNat = 255 <;> simp only [hs, if_true, if_false] <;>
      exact .of_kept rfl
  | prn a => exact .withReg _ _ _ fun r => .of_appended rfl
  | jeq a | jne a => exact .withReg _ _ _ fun r => .branch _ r
  | jmp a | ldi a b => exact .withReg _ _ _ fun r => .of_kept rfl
  | add a b | mul a b | cmp a b =>
    exact .withReg _ _ _ fun ra => .withReg _ _ _ fun rb => .of_kept rfl

/-- A step gives agreeing results whatever the output holds (R87). -/
theorem step_withOut_agree (s : State) (o : List Byte) :
    AgreeUpToOut o s (step s) (step (s.withOut o)) := by
  intro t h
  obtain ⟨hr, ⟨hp, rfl⟩ | ⟨hp, hd, rfl⟩ | ⟨i, hi, he⟩⟩ := step_cases h
  · rw [step_of_window_out (s := s.withOut o) hr hp]
    exact AgreeUpToOut.takeFault _ _ _ _ rfl
  · rw [step_of_unknown (s := s.withOut o) hr hp hd]
    exact AgreeUpToOut.takeFault _ _ _ _ rfl
  · rw [step_of_atInstr (s := s.withOut o) hi]
    exact exec_withOut_agree i s o t he

/-- Settles O28: PRN alone appends, a fault appends nothing, no step reads the output, and since no
step takes bytes from it, a request that empties it is a reset. -/
theorem onlyPrnAppendsOutput : Obligations.OnlyPrnAppendsOutput := by
  refine ⟨fun _ _ => out_of_step, fun s t a hi ha h => ?_, fun _ _ => out_eq_of_step_faulted,
    fun s t o h => ?_, fun g q s t h hne hempty => ?_⟩
  · have hprn := execPrn_eq (r := ⟨a.toNat, Nat.lt_succ_of_le ha⟩) rfl s
    rw [step_of_atInstr hi, hprn] at h
    cases h
    exact List.length_append
  · obtain ⟨bytes, hout, hstep⟩ := step_withOut_agree s o t h
    rw [hout, List.drop_left]
    exact hstep
  · obtain hst | ⟨image, rfl, -⟩ := serve_cases h
    · exact absurd (List.prefix_nil.mp (hempty ▸ out_prefix_of_step hst)) hne
    · exact ⟨image, rfl⟩

end Sys2Proof.Machine
end

section
/-! The stack (43_stack.md): a PUSH undone by the POP of the same register, and what PUSH, CALL, POP
and RET leave unchanged. -/

namespace Sys2Proof.Machine

variable {i : Instr} {s t : State} {a : Byte} {r : Reg} {x : Addr}

/-! ### PUSH then POP -/

/-- Writing to a register the byte it holds changes nothing. -/
theorem State.setReg_reg_self (s : State) (r : Reg) : s.setReg r (s.reg r) = s := by
  simp [State.setReg, State.reg]

/-- POP's load changes nothing where the top of the stack holds the register's byte. -/
theorem State.loadTop_eq_self (h : s.memRead s.sp = s.reg r) : s.loadTop r = s := by
  rw [State.loadTop, h, State.setReg_reg_self]

/-- PUSH decrements SP and leaves on top of the stack the byte its register then holds, R7 too (R90,
92_eei_decisions.md D9). -/
theorem execPush_top (ha : a.toNat = r.val) (hs : s.sp.toNat ≠ 0) :
    ∃ t, exec (.push a) s = .next t ∧ t.regs = s.regs.set 7 (s.sp - 1) ∧ t.pc = s.pc + 2 ∧
      t.sp = s.sp - 1 ∧ t.memRead t.sp = t.reg r := by
  refine ⟨_, execPush_eq ha hs, rfl, rfl, State.sp_setSp .., ?_⟩
  calc (((s.setSp (s.sp - 1)).memWrite (s.sp - 1) _).advance 2).memRead (s.setSp (s.sp - 1)).sp
      = (if r = 7 then s.sp - 1 else s.reg r) := by
        rw [State.sp_setSp]
        exact State.memRead_memWrite_self ..
    _ = (s.setSp (s.sp - 1)).reg r := (State.reg_setSp ..).symm

/-- POP where the top of the stack holds the register's byte only increments SP (R91). -/
theorem execPop_of_top_eq (ha : a.toNat = r.val) (htop : s.memRead s.sp = s.reg r)
    (hs : s.sp.toNat ≠ 255) :
    exec (.pop a) s = .next ((s.setSp (s.sp + 1)).advance 2) := by
  have hload := State.loadTop_eq_self htop
  rw [execPop_eq ha (by rwa [hload]), hload]

/-- Settles O31: the PUSH leaves the register's byte on top of the stack, so that the POP's load
changes nothing, and its increment takes back the decrement. -/
theorem pushThenPopRestores : Obligations.PushThenPopRestores := by
  intro a r s ha hs
  obtain ⟨t, ht, hregs, hpc, hsp, htop⟩ := execPush_top ha hs
  have hne : t.sp.toNat ≠ 255 := by
    have := State.toNat_sp_sub_one hs
    have := byte_le s.sp
    rw [hsp]
    omega
  have hu : ((t.setSp (t.sp + 1)).advance 2).regs = s.regs :=
    calc t.regs.set 7 (t.sp + 1)
        = s.regs.set 7 s.sp := by rw [hregs, hsp, Vector.set_set, BitVec.sub_add_cancel]
      _ = s.regs := Vector.set_getElem_self ..
  refine ⟨t, _, ht, execPop_of_top_eq ha htop hne, State.reg_congr hu r,
    State.reg_congr hu 7, hu, ?_⟩
  rw [State.advance_pc, State.setSp_pc, hpc]

/-! ### The frames of the stack instructions -/

/-- A PUSH or a CALL of a register faults at SP = 0 only (R88). -/
theorem FaultReason.sp_eq_zero {cause : FaultCause} {info : FaultInfo}
    (h : FaultReason i s cause info) (hi : i = .push a ∨ i = .call a) (hw : i.wf = true) :
    s.sp.toNat = 0 := by
  cases h with
  | badA a hi ha => exact absurd (Instr.first_le_of_wf hw hi) (Nat.not_le.mpr ha)
  | badB a b hi _ hb => exact absurd (Instr.second_le_of_wf hw hi) (Nat.not_le.mpr hb)
  | pushAtZero _ _ _ hs => exact hs
  | retAtTop hret => exact nomatch hret ▸ hi
  | popAtTop _ hpop => exact nomatch hpop ▸ hi

/-- A PUSH or a CALL of a register at an SP that is not 0 raises no fault. -/
theorem fault_eq_of_exec_store (hi : i = .push a ∨ i = .call a) (h : exec i s = .next t)
    (hw : i.wf = true) (hs : s.sp.toNat ≠ 0) : t.fault = s.fault := by
  obtain ⟨_, _, hf, -⟩ | hc := exec_cases h
  · exact absurd (hf.sp_eq_zero hi hw) hs
  · exact hc.fault

/-- Every instruction leaves the bytes at other addresses than SP - 1, and at SP = 0 or with a bad
operand every byte (R88, 60_exceptions.md R103). -/
theorem memRead_eq_of_exec (h : exec i s = .next t)
    (hx : s.sp.toNat = 0 ∨ i.wf = false ∨ x.toNat ≠ s.sp.toNat - 1) :
    t.memRead x = s.memRead x := by
  obtain ⟨_, _, -, rfl⟩ | hc := exec_cases h
  · rfl
  · by_contra hne
    obtain ⟨-, hs, rfl, -⟩ := hc.of_memRead_ne hne
    obtain h0 | hw | hx := hx
    · exact hs h0
    · exact nomatch hw.symm.trans hc.wf
    · exact hx (State.toNat_sp_sub_one hs)

/-- An instruction leaves the fault record, or faults and changes nothing else (R103). -/
theorem fault_eq_or_only_fault (h : exec i s = .next t) :
    t.fault = s.fault ∨ t = { s with fault := t.fault } := by
  obtain ⟨_, _, -, rfl⟩ | hc := exec_cases h
  · exact .inr rfl
  · exact .inl hc.fault

/-- Settles O45: both write no register but SP (10_state.md R24) and are no CMP, PRN or HLT; memory
and the fault record by their lemmas. -/
theorem stackWritersFrame : Obligations.StackWritersFrame := by
  intro i a s t hi h
  have F := exec_frame h
  have hmem := fun x => memRead_eq_of_exec (x := x) h
  have hfault := fault_eq_of_exec_store hi h
  obtain rfl | rfl := hi <;>
    exact ⟨fun r hr => F.regs r (beq_false_of_ne hr), F.flags nofun, F.halt nofun, F.out nofun, hmem,
      hfault⟩

/-- Settles O46: POP writes its register and SP, RET only SP (R24); both are no CMP, PRN, HLT, PUSH or
CALL. -/
theorem stackReadersFrame : Obligations.StackReadersFrame := by
  intro i a s t hi h
  have F := exec_frame h
  have hfault := fault_eq_or_only_fault h
  obtain rfl | rfl := hi
  · refine ⟨fun r h7 hr => F.regs r ?_, F.flags nofun, F.halt nofun, F.out nofun,
      fun x => F.mem x (.inr fun _ => ⟨nofun, nofun⟩), hfault⟩
    exact Bool.or_eq_false_iff.mpr ⟨beq_false_of_ne (hr rfl).symm, beq_false_of_ne h7⟩
  · exact ⟨fun r h7 _ => F.regs r (beq_false_of_ne h7), F.flags nofun, F.halt nofun, F.out nofun,
      fun x => F.mem x (.inr fun _ => ⟨nofun, nofun⟩), hfault⟩

end Sys2Proof.Machine
end

section
/-! Control transfer (44_control.md): a CALL undone by the RET after it, and a JMP to itself. -/

namespace Sys2Proof.Machine

variable {s t : State} {a : Byte} {r : Reg}

/-! ### CALL then RET -/

/-- A decremented SP can be incremented again: it is not 255 (43_stack.md R88, R89). -/
theorem State.toNat_sp_sub_one_ne (hs : s.sp.toNat ≠ 0) : (s.sp - 1).toNat ≠ 255 := by
  have := State.toNat_sp_sub_one hs
  have := byte_le s.sp
  omega

/-- Registers that differ from those of `s` by the decrement of SP only give SP its byte. -/
theorem State.sp_eq_sub_one (h : t.regs = s.regs.set 7 (s.sp - 1)) : t.sp = s.sp - 1 :=
  (State.reg_congr (s := s.setSp (s.sp - 1)) h 7).trans (State.sp_setSp ..)

/-- Incrementing SP takes back a decrement of it, for every register. -/
theorem State.setSp_add_one_regs (h : t.regs = s.regs.set 7 (s.sp - 1)) :
    (t.setSp (t.sp + 1)).regs = s.regs :=
  calc t.regs.set 7 (t.sp + 1)
      = s.regs.set 7 s.sp := by
        rw [State.sp_eq_sub_one h, h, Vector.set_set, BitVec.sub_add_cancel]
    _ = s.regs := Vector.set_getElem_self ..

/-- CALL decrements SP and stores the return address at the decremented SP (R92). -/
theorem execCall_pushes (ha : a.toNat = r.val) (hs : s.sp.toNat ≠ 0) :
    ∃ t, exec (.call a) s = .next t ∧ t.regs = s.regs.set 7 (s.sp - 1) ∧
      t.memRead (s.sp - 1) = returnAddress s :=
  ⟨_, execCall_eq ha hs, rfl, State.memRead_memWrite_self ..⟩

/-- RET at an SP that is not 255: the increment, and the pc at the byte that was on top of the stack
(R93). -/
theorem execRet_eq (hs : s.sp.toNat ≠ 255) :
    exec .ret s = .next ((s.setSp (s.sp + 1)).setPc (s.memRead s.sp).toNat) := by
  simp only [exec, execRet, State.pop_eq, if_neg hs]

/-- Settles O35: the RET pops the return address the CALL stored at the decremented SP, and the
RET's increment takes back the CALL's decrement. -/
theorem callThenRetResumes : Obligations.CallThenRetResumes := by
  intro a s ha hp hs
  obtain ⟨t, ht, hregs, hstored⟩ :=
    execCall_pushes (r := ⟨a.toNat, Nat.lt_succ_of_le ha⟩) rfl hs
  have hsp : t.sp = s.sp - 1 := State.sp_eq_sub_one hregs
  have hne : t.sp.toNat ≠ 255 := hsp ▸ State.toNat_sp_sub_one_ne hs
  have hu : ((t.setSp (t.sp + 1)).setPc (t.memRead t.sp).toNat).regs = s.regs :=
    State.setSp_add_one_regs hregs
  refine ⟨t, _, ht, execRet_eq hne, ?_, State.reg_congr hu 7, hu⟩
  rw [State.setPc_pc, hsp, hstored, toNat_returnAddress hp]

/-! ### JMP to itself -/

/-- JMP of a register: the pc at the register (R94). -/
theorem execJmp_eq (ha : a.toNat = r.val) (s : State) :
    exec (.jmp a) s = .next (s.setPc (s.reg r).toNat) :=
  withReg_of_eq ha s _

/-- A step at a JMP whose register holds the JMP's own address changes nothing. -/
theorem step_jmp_self (hi : s.AtInstr (.jmp a)) (ha : a.toNat = r.val)
    (hpc : (s.reg r).toNat = s.pc) : step s = .next s := by
  rw [step_of_atInstr hi, execJmp_eq ha, hpc]
  rfl

/-- A run stays at a state whose step changes nothing (40_engine.md R78). -/
theorem run_of_step_self (h : step s = .next s) (n : Nat) : run n s = s := by
  induction n with
  | zero => rfl
  | succ n ih => simp only [run, h, ih]

/-- Settles O39: the step changes nothing, so every run stays at the JMP, which is Running. -/
theorem jumpToItselfRunsForever : Obligations.JumpToItselfRunsForever := by
  intro a r s hi ha hpc
  have hrun : ∀ n, run n s = s := run_of_step_self (step_jmp_self hi ha hpc)
  exact ⟨hrun, fun n => (hrun n).symm ▸ hi.1⟩

end Sys2Proof.Machine
end

section
/-! The first fetch (70_reset_and_hazards.md R117): the pc a reset leaves, and the window read there. -/

namespace Sys2Proof.Machine

/-- After reset the pc is at the reset vector, address 0 (R117, 10_state.md R36). -/
@[simp] theorem State.pc_resetWith (g : Vector Byte 7) (image : List Byte) :
    (State.resetWith g image).pc = 0 := rfl

/-- Settles O21: the window at pc 0 lies inside memory, so the fetch reads the bytes at 0, 1 and 2,
which are those of the image, or 0 beyond it. -/
theorem firstFetchReadsTheImage : Obligations.FirstFetchReadsTheImage := by
  intro g image h
  have hmem := State.memRead_resetWith g h
  have hir : (State.resetWith g image).opcodeAt = image.getD 0 0 := hmem 0
  have ha : (State.resetWith g image).firstAt = image.getD 1 0 := hmem 1
  have hb : (State.resetWith g image).secondAt = image.getD 2 0 := hmem 2
  have hp : ¬ 253 < (State.resetWith g image).pc := by simp
  rw [fetch_eq, if_neg hp, hir, ha, hb]

end Sys2Proof.Machine
end

section
/-! Encoding (30_encoding.md): decoding undoes encoding, the bytes of the opcode map, and the bytes
outside it. -/

namespace Sys2Proof

variable {ir a b : Byte} {i : Instr}

/-! ### Decoding and encoding -/

/-- Decoding the bytes of an instruction gives it back, whatever follows them in the window (R60,
R63). -/
theorem decode_encode (i : Instr) (pad : List Byte) :
    decode ((encode i ++ pad).getD 0 0) ((encode i ++ pad).getD 1 0) ((encode i ++ pad).getD 2 0)
      = .instr i := by
  cases i <;> rfl

/-- A window decodes to the instruction whose bytes it begins with, and to no other. -/
theorem decode_eq_instr_iff : decode ir a b = .instr i ↔ encode i <+: [ir, a, b] := by
  constructor
  · intro h
    rw [encode_of_decode h, List.cons_prefix_cons]
    exact ⟨rfl, List.take_prefix ..⟩
  · rintro ⟨pad, hpad⟩
    have h := decode_encode i pad
    rwa [hpad] at h

/-- Settles O2: decoding undoes encoding, and the bytes of a decoded instruction are the first of
its window. -/
theorem decodeAndEncodeAgree : Obligations.DecodeAndEncodeAgree :=
  ⟨decode_encode, fun _ _ _ _ => decode_eq_instr_iff⟩

/-! ### The bytes of the opcode map -/

/-- The bytes of the opcode map, in the order of its rows (R57). -/
def opcodeBytes : List Byte := Op.all.map Op.opcode

theorem Op.mem_all (op : Op) : op ∈ Op.all := by
  cases op <;> decide

theorem Op.opcode_mem_opcodeBytes (op : Op) : op.opcode ∈ opcodeBytes :=
  List.mem_map_of_mem op.mem_all

theorem mem_opcodeBytes_of_decode (h : decode ir a b = .instr i) : ir ∈ opcodeBytes :=
  opcode_of_decode h ▸ i.op.opcode_mem_opcodeBytes

/-- No byte of the map is answered "unknown opcode". -/
theorem decode_opcode_ne_unknown (op : Op) (a b x : Byte) :
    decode op.opcode a b ≠ .unknownOpcode x := by
  cases op <;> nofun

/-- A byte is unknown exactly when it is not in the map, whatever the operand bytes (R56, R72). -/
theorem decode_eq_unknown_iff : decode ir a b = .unknownOpcode ir ↔ ir ∉ opcodeBytes := by
  constructor
  · intro h hmem
    obtain ⟨op, -, rfl⟩ := List.mem_map.mp hmem
    exact decode_opcode_ne_unknown op a b _ h
  · intro hmem
    cases hd : decode ir a b with
    | unknownOpcode x => rw [eq_of_decode_unknown hd]
    | instr i => exact absurd (mem_opcodeBytes_of_decode hd) hmem

/-- Settles O1: each byte is the encoding of its instruction, and a byte that decodes is an opcode
of the map. -/
theorem opcodeMapBytesDecode : Obligations.OpcodeMapBytesDecode :=
  ⟨fun a b => decode_encode .hlt [a, b], fun a b => decode_encode .ret [a, b],
    fun a b => decode_encode (.push a) [b], fun a b => decode_encode (.pop a) [b],
    fun a b => decode_encode (.prn a) [b], fun a b => decode_encode (.call a) [b],
    fun a b => decode_encode (.jmp a) [b], fun a b => decode_encode (.jeq a) [b],
    fun a b => decode_encode (.jne a) [b], fun a b => decode_encode (.ldi a b) [],
    fun a b => decode_encode (.add a b) [], fun a b => decode_encode (.mul a b) [],
    fun a b => decode_encode (.cmp a b) [], fun _ _ _ _ => mem_opcodeBytes_of_decode⟩

/-- Of the 256 byte values 13 are bytes of the map: as numbers they are the map's bytes again. -/
theorem length_filter_legal :
    ((List.range 256).filter fun n => BitVec.ofNat 8 n ∈ opcodeBytes).length = 13 := by
  have hmem (n : Nat) : n ∈ (List.range 256).filter (BitVec.ofNat 8 · ∈ opcodeBytes) ↔
      n ∈ opcodeBytes.map BitVec.toNat := by
    simp only [List.mem_filter, List.mem_range, decide_eq_true_eq, List.mem_map]
    constructor
    · rintro ⟨hn, hm⟩
      exact ⟨_, hm, Nat.mod_eq_of_lt hn⟩
    · rintro ⟨v, hv, rfl⟩
      rw [BitVec.ofNat_toNat, BitVec.setWidth_eq]
      exact ⟨v.isLt, hv⟩
  have hnodup : (opcodeBytes.map BitVec.toNat).Nodup := by decide
  exact ((List.perm_ext_iff_of_nodup (List.nodup_range.filter _) hnodup).mpr hmem).length_eq

/-- The other 243 byte values are outside it (R56). -/
theorem length_filter_illegal :
    ((List.range 256).filter fun n => BitVec.ofNat 8 n ∉ opcodeBytes).length = 243 := by
  have h := List.length_eq_length_filter_add (l := List.range 256)
    fun n => decide (BitVec.ofNat 8 n ∈ opcodeBytes)
  simp only [length_filter_legal, List.length_range] at h
  simp only [decide_not]
  exact (Nat.add_left_cancel (n := 13) (m := 243) h).symm

/-- Settles O4: a byte is illegal exactly when it is outside the map, and a step that fetches one
takes the fault. -/
theorem illegalOpcodeByteFaults : Obligations.IllegalOpcodeByteFaults := by
  refine ⟨fun a b => ?_, fun a b => ⟨?_, ?_⟩, fun s hr hp hs => ?_⟩
  · simp only [decode_eq_unknown_iff]
    exact length_filter_illegal
  · exact decode_eq_unknown_iff.mpr (by decide)
  · exact decode_eq_unknown_iff.mpr (by decide)
  · exact Machine.step_of_unknown hr hp (decode_eq_unknown_iff.mpr hs)

end Sys2Proof
end

section
/-! The faults of a step (60_exceptions.md): the operand check, the record a faulting step leaves,
the instructions that raise each cause, and the priority of the causes. -/

namespace Sys2Proof

variable {ir a b : Byte} {i : Instr}

/-! ### The operands a format checks -/

/-- Where byte 1 is a register operand, it is the instruction's first operand (R60, 40_engine.md
R73). -/
theorem head_operands_of_usesRegA (hd : decode ir a b = .instr i)
    (hu : i.op.format.usesRegA = true) : i.operands.head? = some a := by
  obtain ⟨hone, -⟩ := operands_of_decode hd
  cases i with
  | hlt | ret => exact nomatch hu
  | push x | pop x | prn x | call x | jmp x | jeq x | jne x | ldi x _ | add x _ | mul x _
  | cmp x _ =>
    exact congrArg some (hone x rfl)

/-- An instruction with a first operand checks it: every format but F0 has it as a register. -/
theorem usesRegA_of_head {x : Byte} (h : i.operands.head? = some x) :
    i.op.format.usesRegA = true := by
  cases i with
  | hlt | ret => exact nomatch h
  | push | pop | prn | call | jmp | jeq | jne | ldi | add | mul | cmp => rfl

/-- Where byte 2 is a register operand, the instruction is an ADD, MUL or CMP of the two bytes after
the opcode. -/
theorem eq_alu_of_usesRegB (hd : decode ir a b = .instr i) (hu : i.op.format.usesRegB = true) :
    i = .add a b ∨ i = .mul a b ∨ i = .cmp a b := by
  obtain ⟨-, htwo⟩ := operands_of_decode hd
  cases i with
  | hlt | ret | push | pop | prn | call | jmp | jeq | jne | ldi => exact nomatch hu
  | add x y | mul x y | cmp x y =>
    obtain ⟨rfl, rfl⟩ := htwo x y rfl
    simp

namespace Machine

variable {s t : State} {r : FaultRecord} {cause : FaultCause} {info : FaultInfo}

/-! ### The operand check -/

/-- An instruction whose first operand is no register raises INVALID_REGISTER for it, whatever it
would do (R73). -/
theorem exec_of_bad_a (hi : i.operands.head? = some a) (ha : 7 < a.toNat) (s : State) :
    exec i s
      = .next (s.takeFault .invalidRegister (some i.op.opcode) (.register .a a)) := by
  cases i with
  | hlt | ret => exact nomatch hi
  | push | pop | prn | call | jmp | jeq | jne | ldi | add | mul | cmp =>
    cases hi
    exact withReg_of_gt ha s _

/-- An ADD, MUL or CMP whose second operand alone is no register raises INVALID_REGISTER for it. -/
theorem exec_of_bad_b (hi : i = .add a b ∨ i = .mul a b ∨ i = .cmp a b) (ha : a.toNat ≤ 7)
    (hb : 7 < b.toNat) (s : State) :
    exec i s
      = .next (s.takeFault .invalidRegister (some i.op.opcode) (.register .b b)) := by
  have hr : a.toNat = (⟨a.toNat, Nat.lt_succ_of_le ha⟩ : Reg).val := rfl
  obtain rfl | rfl | rfl := hi <;>
    exact (withReg_of_eq hr s _).trans (withReg_of_gt hb s _)

/-- With register operands only, the cause is that of the stack. -/
theorem FaultReason.cause_eq_of_wf (h : FaultReason i s cause info) (hw : i.wf = true) :
    cause = .stackOutOfRange := by
  cases h with
  | badA a hi ha => exact absurd (Instr.first_le_of_wf hw hi) (Nat.not_le.mpr ha)
  | badB a b hi _ hb => exact absurd (Instr.second_le_of_wf hw hi) (Nat.not_le.mpr hb)
  | pushAtZero | retAtTop | popAtTop => rfl

/-- A record that the rule of an instruction writes is one of its faults'. -/
theorem takesFault_of_exec (h : exec i s = .next t) (hs : s.fault = none) (ht : t.fault = some r) :
    TakesFault i s t :=
  (exec_cases h).resolve_right fun hc => nomatch hs.symm.trans (hc.fault.symm.trans ht)

/-- Settles O7: the check of `a` and then of `b` raises INVALID_REGISTER, and with register operands
the faults left are those of the stack. -/
theorem badRegisterOperandFaults : Obligations.BadRegisterOperandFaults := by
  refine ⟨fun i a s _ _ hi ha => exec_of_bad_a hi ha s,
    fun i a b s hi ha hb => exec_of_bad_b hi ha hb s, fun i s t r hw h hs hr => ?_,
    fun a b => decide_eq_decide.mpr Nat.lt_succ_iff, rfl, rfl⟩
  obtain ⟨cause, info, hf, rfl⟩ := takesFault_of_exec h hs hr
  cases hr
  simp [hf.cause_eq_of_wf hw]

/-! ### The record of a faulting step -/

/-- Why a step of a Running block faults, and the record that it leaves (R100, R101). -/
inductive StepFault (s : State) : FaultRecord → Prop where
  /-- The fetch window leaves memory (R71). -/
  | fetch (hp : 253 < s.pc) :
      StepFault s { cause := .fetchOutOfRange, fpc := s.pc, opcode := none, info := .noDetail }
  /-- The byte at pc is not in the opcode map (R72). -/
  | unknown (hp : s.pc ≤ 253)
      (hd : decode s.opcodeAt s.firstAt s.secondAt = .unknownOpcode s.opcodeAt) :
      StepFault s { cause := .unknownOpcode, fpc := s.pc, opcode := some s.opcodeAt
                    info := .noDetail }
  /-- The instruction at pc takes one of its faults. -/
  | instr {i : Instr} {cause : FaultCause} {info : FaultInfo} (hi : s.AtInstr i)
      (hf : FaultReason i s cause info) :
      StepFault s { cause := cause, fpc := s.pc, opcode := some s.opcodeAt, info := info }

/-- A step that leaves a record has one of these reasons, and changes nothing but the record
(R103). -/
theorem stepFault_of_step (h : step s = .next t) (ht : t.fault = some r) :
    StepFault s r ∧ t = { s with fault := some r } := by
  obtain ⟨hr, ⟨hp, rfl⟩ | ⟨hp, hd, rfl⟩ | ⟨i, hi, he⟩⟩ := step_cases h
  · cases ht
    exact ⟨.fetch hp, rfl⟩
  · cases ht
    exact ⟨.unknown hp hd, rfl⟩
  · obtain ⟨cause, info, hf, rfl⟩ :=
      takesFault_of_exec he ((State.status_running_iff s).mp hr).2 ht
    cases ht
    rw [← hi.opcodeAt_eq]
    exact ⟨.instr hi hf, rfl⟩

theorem StepFault.fpc_eq (h : StepFault s r) : r.fpc = s.pc := by
  cases h <;> rfl

/-- The record holds the byte at pc, if the fetch got it. -/
theorem StepFault.opcode_eq (h : StepFault s r) :
    r.opcode = if s.pc ≤ 253 then some s.opcodeAt else none := by
  cases h with
  | fetch hp => rw [if_neg (Nat.not_le.mpr hp)]
  | unknown hp => rw [if_pos hp]
  | instr hi => rw [if_pos hi.2.1]

/-- A Faulted state holds a record. -/
theorem State.exists_fault_of_faulted (h : t.status = .faulted) : ∃ r, t.fault = some r :=
  Option.isSome_iff_exists.mp ((State.status_faulted_iff t).mp h)

/-- Settles O9: the record is that of the step's fault, and nothing else changed. -/
theorem faultsArePreciseAndAtomic : Obligations.FaultsArePreciseAndAtomic := by
  intro s t _ h hst
  obtain ⟨r, hr⟩ := State.exists_fault_of_faulted hst
  obtain ⟨hf, ht⟩ := stepFault_of_step h hr
  exact ⟨r, ht, hf.fpc_eq, fun hp => by rw [hf.opcode_eq, if_pos hp],
    fun hp => by rw [hf.opcode_eq, if_neg (Nat.not_le.mpr hp)]⟩

/-! ### The instructions of each cause -/

/-- INVALID_REGISTER at an instruction names the byte of the window that is no register. -/
theorem FaultReason.of_invalidRegister (h : FaultReason i s .invalidRegister info)
    (hi : s.AtInstr i) :
    (i.op.format.usesRegA = true ∧ 7 < s.firstAt.toNat ∧ info = .register .a s.firstAt) ∨
    (i.op.format.usesRegB = true ∧ s.firstAt.toNat ≤ 7 ∧ 7 < s.secondAt.toNat ∧
      info = .register .b s.secondAt) := by
  obtain ⟨hone, htwo⟩ := operands_of_decode hi.2.2
  cases h with
  | badA a ha hbad =>
    obtain rfl := hone a ha
    exact .inl ⟨usesRegA_of_head ha, hbad, rfl⟩
  | badB a b hab ha hb =>
    have hops : i.operands = [a, b] := by obtain rfl | rfl | rfl := hab <;> rfl
    obtain ⟨rfl, rfl⟩ := htwo a b hops
    exact .inr ⟨by obtain rfl | rfl | rfl := hab <;> rfl, ha, hb, rfl⟩

/-- STACK_OUT_OF_RANGE is raised by a push at SP = 0 or by a pop that would increment 255. -/
theorem FaultReason.of_stackOutOfRange (h : FaultReason i s .stackOutOfRange info) :
    (∃ a, (i = .push a ∨ i = .call a) ∧ s.sp.toNat = 0 ∧ info = .stack s.sp .push) ∨
    (i = .ret ∧ s.sp.toNat = 255 ∧ info = .stack s.sp .pop) ∨
    (∃ a : Byte, i = .pop a ∧ (if a.toNat = 7 then s.memRead s.sp else s.sp).toNat = 255 ∧
      info = .stack (if a.toNat = 7 then s.memRead s.sp else s.sp) .pop) := by
  cases h with
  | pushAtZero a hi _ hs => exact .inl ⟨a, hi, hs, rfl⟩
  | retAtTop hi hs => exact .inr (.inl ⟨hi, hs, rfl⟩)
  | popAtTop a hi _ hs => exact .inr (.inr ⟨a, hi, hs, rfl⟩)

/-- An instruction's fault has one of two causes. -/
theorem FaultReason.cause_cases (h : FaultReason i s cause info) :
    cause = .invalidRegister ∨ cause = .stackOutOfRange := by
  cases h with
  | badA | badB => exact .inl rfl
  | pushAtZero | retAtTop | popAtTop => exact .inr rfl

/-- A stack fault of a step is one of the instruction at pc. -/
theorem StepFault.of_stackOutOfRange (h : StepFault s r) (hc : r.cause = .stackOutOfRange) :
    ∃ i, s.AtInstr i ∧ FaultReason i s .stackOutOfRange r.info := by
  cases h with
  | fetch | unknown => exact nomatch hc
  | instr hi hf =>
    cases hc
    exact ⟨_, hi, hf⟩

/-- Settles O12: the record's fields by the reason of the step's fault, and the instruction by the
reason of its fault. -/
theorem eachCauseIsRaisedByItsInstructions : Obligations.EachCauseIsRaisedByItsInstructions := by
  refine ⟨⟨rfl, rfl, rfl, rfl, rfl⟩, fun s t r _ h hr => ?_⟩
  have hf := (stepFault_of_step h hr).1
  refine ⟨hf.fpc_eq, fun hc => ?_, fun hc => ?_, fun hc => ?_, fun hc => ?_⟩
  · cases hf with
    | fetch => exact nomatch hc
    | unknown _ hd => exact ⟨hd, rfl, rfl⟩
    | instr _ hf => obtain rfl | rfl := hf.cause_cases <;> exact nomatch hc
  · cases hf with
    | fetch hp => exact ⟨Nat.add_lt_add_right hp 2, rfl, rfl⟩
    | unknown => exact nomatch hc
    | instr _ hf => exact absurd hc hf.cause_ne_fetchOutOfRange
  · cases hf with
    | fetch | unknown => exact nomatch hc
    | instr hi hf =>
      cases hc
      exact ⟨_, hi, hf.of_invalidRegister hi⟩
  · obtain ⟨i, hi, hf⟩ := hf.of_stackOutOfRange hc
    obtain ⟨a, rfl | rfl, hs, hinfo⟩ | ⟨rfl, hs, hinfo⟩ | ⟨a, rfl, hs, hinfo⟩ :=
      hf.of_stackOutOfRange
    · exact .inl ⟨a, .inl hi, hs, hinfo⟩
    · exact .inl ⟨a, .inr hi, hs, hinfo⟩
    · exact .inr (.inl ⟨hi, hs, hinfo⟩)
    · exact .inr (.inr ⟨a, hi, hs, hinfo⟩)

/-- Settles O13: no reason of a fault has the cause ALU_UNSUPPORTED (R102). -/
theorem aluUnsupportedIsUnreachable : Obligations.AluUnsupportedIsUnreachable := by
  intro s t r _ h hr
  have hne : r.cause ≠ .aluUnsupported := by
    cases (stepFault_of_step h hr).1 with
    | fetch | unknown => nofun
    | instr _ hf => obtain rfl | rfl := hf.cause_cases <;> nofun
  refine ⟨hne, ?_⟩
  cases hc : r.cause with
  | aluUnsupported => exact absurd hc hne
  | unknownOpcode | fetchOutOfRange | invalidRegister | stackOutOfRange => decide

/-- Settles O51: the pushes fault at SP = 0, and RET and the POPs into other registers than R7 at
SP = 255. -/
theorem stackFaultsOnlyAtTheMemoryBounds : Obligations.StackFaultsOnlyAtTheMemoryBounds := by
  intro s t r _ h hr hc hpop
  obtain ⟨i, hi, hf⟩ := (stepFault_of_step h hr).1.of_stackOutOfRange hc
  obtain ⟨_, -, hs, -⟩ | ⟨-, hs, -⟩ | ⟨a, rfl, hs, -⟩ := hf.of_stackOutOfRange
  · exact .inl hs
  · exact .inr hs
  · rw [if_neg fun h7 => hpop a h7 hi] at hs
    exact .inr hs

/-! ### The priority -/

/-- The record of a step at an instruction whose rule takes a known fault. -/
theorem record_of_exec_eq_takeFault {o : Option Byte} (hi : s.AtInstr i) (h : step s = .next t)
    (ht : t.fault = some r) (he : exec i s = .next (s.takeFault cause o info)) :
    r.cause = cause ∧ r.info = info := by
  rw [step_of_atInstr hi, he] at h
  cases h
  cases ht
  exact ⟨rfl, rfl⟩

/-- Settles O8: the fetch is checked first, then the opcode, then operand `a`, then operand `b`;
with register operands the stack is left. -/
theorem faultPriorityIsFixed : Obligations.FaultPriorityIsFixed := by
  intro s t r hs h hr
  refine ⟨fun hp => ?_, fun hp hd => ?_, fun i hp hd => ?_⟩
  · cases (step_of_window_out hs hp).symm.trans h
    cases hr
    rfl
  · cases (step_of_unknown hs hp hd).symm.trans h
    cases hr
    rfl
  · have hi : s.AtInstr i := ⟨hs, hp, hd⟩
    refine ⟨fun hu ha => ?_, fun hu ha hb => ?_, fun hw => ?_⟩
    · exact record_of_exec_eq_takeFault hi h hr
        (exec_of_bad_a (head_operands_of_usesRegA hd hu) ha s)
    · exact record_of_exec_eq_takeFault hi h hr (exec_of_bad_b (eq_alu_of_usesRegB hd hu) ha hb s)
    · obtain ⟨cause, info, hf, rfl⟩ := takesFault_of_exec (step_of_atInstr hi ▸ h)
        ((State.status_running_iff s).mp hs).2 hr
      cases hr
      exact hf.cause_eq_of_wf hw

/-- Settles O6: the fetch outside memory and the fetch inside it. -/
theorem fetchReadsThreeBytesOrFaults : Obligations.FetchReadsThreeBytesOrFaults :=
  ⟨fun _ hr hp => step_of_window_out hr (by omega),
    fun s hp => (fetch_eq s).trans (if_neg (by omega))⟩

end Machine

end Sys2Proof
end

section
/-! Memory and reset (20_memory.md, 70_reset_and_hazards.md): the cells of a canonical memory are
what it reads; the refused image; the invariant after reset. -/

namespace Sys2Proof.Machine

variable {m n : Memory} {k : Nat} {v : Byte}

/-! ### A canonical memory is what it reads -/

/-- A key that does not read as unlisted has its cell in the list. -/
theorem Memory.mem_of_lookup_ne (h : m.lookup k ≠ Memory.unlisted) : (k, m.lookup k) ∈ m := by
  induction m with
  | nil => exact absurd rfl h
  | cons c rest ih =>
    obtain ⟨k', v'⟩ := c
    by_cases hk : k' = k
    · subst hk
      simp [Memory.lookup]
    · simp only [Memory.lookup, hk, if_false] at h ⊢
      exact List.mem_cons_of_mem _ (ih h)

/-- Where the keys rise, a listed cell gives its key its byte. -/
theorem Memory.lookup_of_mem (hm : m.Pairwise fun c d => c.1 < d.1) (h : (k, v) ∈ m) :
    m.lookup k = v := by
  induction m with
  | nil => cases h
  | cons c rest ih =>
    obtain ⟨hlt, hrest⟩ := List.pairwise_cons.mp hm
    obtain rfl | h := List.mem_cons.mp h
    · exact if_pos rfl
    · exact (if_neg (hlt _ h).ne).trans (ih hrest h)

/-- The cells of a canonical memory are the addresses that hold something, with what they hold. -/
theorem Memory.mem_iff_of_wf (hm : m.wf) :
    (k, v) ∈ m ↔ k < 256 ∧ v ≠ Memory.unlisted ∧ m.lookup k = v := by
  constructor
  · intro h
    obtain ⟨hk, hv⟩ := hm.2 _ h
    exact ⟨hk, hv, Memory.lookup_of_mem hm.1 h⟩
  · rintro ⟨-, hv, rfl⟩
    exact Memory.mem_of_lookup_ne hv

/-- No cell of a canonical memory is listed twice. -/
theorem Memory.nodup_of_wf (hm : m.wf) : m.Nodup :=
  hm.1.imp fun hlt heq => hlt.ne (congrArg Prod.fst heq)

/-- Memories that read alike at every address read alike at every key below 256. -/
theorem Memory.lookup_congr (h : ∀ a : Addr, m.read a = n.read a) (hk : k < 256) :
    m.lookup k = n.lookup k := by
  have hka : (BitVec.ofNat 8 k).toNat = k := Nat.mod_eq_of_lt hk
  simpa only [Memory.read, hka] using h (BitVec.ofNat 8 k)

/-- Settles O20: the two lists have the same cells in the same strict order, so they are the same
list. -/
theorem memoriesThatReadAlikeAreEqual : Obligations.MemoriesThatReadAlikeAreEqual := by
  intro m n hm hn h
  have hmem (c : Host.Cell) : c ∈ m ↔ c ∈ n := by
    rw [Memory.mem_iff_of_wf hm, Memory.mem_iff_of_wf hn]
    exact and_congr_right fun hk => by rw [Memory.lookup_congr h hk]
  have hperm : m.Perm n :=
    (List.perm_ext_iff_of_nodup (Memory.nodup_of_wf hm) (Memory.nodup_of_wf hn)).mpr hmem
  exact hperm.eq_of_pairwise (fun _ _ _ _ hab hba => absurd hab hba.asymm) hm.1 hn.1

/-! ### Reset -/

/-- Settles O16: the request is obeyed only for an image that fits memory. -/
theorem overlongImageIsRefused : Obligations.OverlongImageIsRefused :=
  fun _ _ _ h => if_neg (Nat.not_le.mpr h)

/-- `State.reset` is the reset with the empty image. -/
theorem State.reset_eq_resetWith : State.reset = State.resetWith Config.gprInit [] := rfl

/-- Settles O17: `State.inv_resetWith`, of which `State.reset` is a case. -/
theorem invariantHoldsAfterReset : Obligations.InvariantHoldsAfterReset :=
  ⟨fun g image _ => State.inv_resetWith g image,
    State.reset_eq_resetWith ▸ State.inv_resetWith Config.gprInit []⟩

end Sys2Proof.Machine
end

section
/-! The ALU, load and output (41_alu.md, 42_load_output.md): FL as a byte, and ADD, MUL, CMP, LDI
and PRN, each with its encoding, its effect and its faults. -/

namespace Sys2Proof.Machine

variable {a b : Byte} {ra rb : Reg}

/-! ### FL -/

/-- Settles O25: FL has eight values, and each has the layout. -/
theorem flagByteLayout : Obligations.FlagByteLayout := by
  rintro ⟨e, l, g⟩
  revert e l g
  decide

theorem compareFlags_of_eq {x y : Byte} (h : x.toNat = y.toNat) :
    compareFlags x y = { e := true, l := false, g := false } :=
  if_pos h

theorem compareFlags_of_lt {x y : Byte} (h : x.toNat < y.toNat) :
    compareFlags x y = { e := false, l := true, g := false } :=
  (if_neg h.ne).trans (if_pos h)

theorem compareFlags_of_gt {x y : Byte} (h : x.toNat > y.toNat) :
    compareFlags x y = { e := false, l := false, g := true } :=
  (if_neg h.ne').trans (if_neg h.asymm)

/-! ### ADD, MUL and CMP -/

/-- The check of two register operands goes on with both (R73). -/
theorem withRegAB_of_eq (ha : a.toNat = ra.val) (hb : b.toNat = rb.val) (op : Op) (s : State)
    (k : Reg → Reg → Result) : withRegAB op a b s k = k ra rb :=
  (withReg_of_eq ha s _).trans (withReg_of_eq hb s _)

/-- Settles O22: the operands name two registers, or one of them is the byte the fault names. -/
theorem addKeepsTheSumModulo256 : Obligations.AddKeepsTheSumModulo256 :=
  fun a b s => ⟨decode_encode (.add a b) [], rfl, fun _ _ ha hb => withRegAB_of_eq ha hb .add s _,
    fun ha => exec_of_bad_a rfl ha s, fun ha hb => exec_of_bad_b (.inl rfl) ha hb s⟩

/-- Settles O23: the operands name two registers, or one of them is the byte the fault names. -/
theorem mulKeepsTheProductModulo256 : Obligations.MulKeepsTheProductModulo256 :=
  fun a b s => ⟨decode_encode (.mul a b) [], rfl, fun _ _ ha hb => withRegAB_of_eq ha hb .mul s _,
    fun ha => exec_of_bad_a rfl ha s, fun ha hb => exec_of_bad_b (.inr (.inl rfl)) ha hb s⟩

/-- Settles O24: FL becomes the comparison's result, one clause for each order of the two bytes. -/
theorem cmpSetsExactlyOneFlag : Obligations.CmpSetsExactlyOneFlag := by
  intro a b s
  refine ⟨decode_encode (.cmp a b) [], rfl, fun ra rb ha hb => ?_,
    fun ha => exec_of_bad_a rfl ha s, fun ha hb => exec_of_bad_b (.inr (.inr rfl)) ha hb s⟩
  obtain ⟨-, -, -, hbyte⟩ := flagByteLayout (compareFlags (s.reg ra) (s.reg rb))
  exact ⟨_, withRegAB_of_eq ha hb .cmp s _, compareFlags_of_eq, compareFlags_of_lt,
    compareFlags_of_gt, hbyte⟩

/-! ### LDI and PRN -/

/-- LDI into a register: the immediate, and the next pc (R85). -/
theorem execLdi_eq (ha : a.toNat = ra.val) (b : Byte) (s : State) :
    exec (.ldi a b) s = .next ((s.setReg ra b).advance 3) :=
  withReg_of_eq ha s _

/-- Settles O26: the operand names a register, or is the byte the fault names. -/
theorem ldiLoadsTheImmediate : Obligations.LdiLoadsTheImmediate :=
  fun a b s => ⟨decode_encode (.ldi a b) [], rfl, fun _ ha => execLdi_eq ha b s,
    fun ha => exec_of_bad_a rfl ha s⟩

/-- Settles O27: the operand names a register, or is the byte the fault names. -/
theorem prnAppendsTheRegister : Obligations.PrnAppendsTheRegister :=
  fun a s => ⟨fun b => decode_encode (.prn a) [b], rfl, fun _ ha => execPrn_eq ha s,
    fun ha => exec_of_bad_a rfl ha s⟩

end Sys2Proof.Machine
end

section
/-! Stack, control and halt (43_stack.md, 44_control.md, 45_halt.md): each instruction with its
encoding, its effect and its faults; the next pc of every instruction (10_state.md R27). -/

namespace Sys2Proof.Machine

variable {i : Instr} {s t : State} {a : Byte} {r : Reg}

/-- A byte of 0..7 names a register (10_state.md R20). -/
theorem exists_reg (h : a.toNat ≤ 7) : ∃ r : Reg, a.toNat = r.val :=
  ⟨⟨a.toNat, Nat.lt_succ_of_le h⟩, rfl⟩

/-! ### PUSH and POP -/

/-- PUSH at SP = 0 raises the stack's fault (R88). -/
theorem execPush_at_zero (ha : a.toNat = r.val) (hs : s.sp.toNat = 0) :
    exec (.push a) s
      = .next (s.takeFault .stackOutOfRange (some Op.push.opcode) (.stack s.sp .push)) := by
  simp only [exec, execPush, withRegA, withReg_of_eq ha, State.spDec_eq, if_pos hs, raiseStack,
    raise]

/-- Settles O29: the decrement and the store at the decremented SP, or one of the two faults. -/
theorem pushStoresBelowTheStackPointer : Obligations.PushStoresBelowTheStackPointer := by
  intro a s
  refine ⟨fun b => decode_encode (.push a) [b], rfl, fun r ha hs => ?_, fun ha hs => ?_,
    fun ha => exec_of_bad_a rfl ha s⟩
  · exact ⟨_, execPush_eq ha hs, rfl, rfl, State.memRead_memWrite_self ..,
      fun x hx => Memory.read_write_of_ne _ _ hx, rfl, rfl, rfl, rfl⟩
  · obtain ⟨r, hr⟩ := exists_reg ha
    exact execPush_at_zero hr hs

/-- POP where the SP to be incremented is 255 raises the stack's fault and commits nothing (R91,
60_exceptions.md R103). -/
theorem execPop_at_top (ha : a.toNat = r.val) (hs : (s.loadTop r).sp.toNat = 255) :
    exec (.pop a) s = .next (s.takeFault .stackOutOfRange (some Op.pop.opcode)
      (.stack (s.loadTop r).sp .pop)) := by
  simp only [exec, execPop, withRegA, withReg_of_eq ha, State.spInc_eq, if_pos hs, raiseStack,
    raise]

/-- POP's load into R7 makes SP the loaded byte (92_eei_decisions.md D9). -/
theorem State.sp_loadTop_seven (s : State) : (s.loadTop 7).sp = s.memRead s.sp :=
  State.reg_setReg_self ..

/-- Settles O30: the SP that is incremented is the loaded byte for R7 and the old SP otherwise; it
is 255, and the POP faults, or not, and it completes. -/
theorem popLoadsThenIncrements : Obligations.PopLoadsThenIncrements := by
  intro a s
  have hsp7 := State.sp_loadTop_seven s
  refine ⟨fun b => decode_encode (.pop a) [b], rfl, fun r ha hne hs => ?_, fun ha hs => ?_,
    fun ha hs => ?_, fun ha hs => ?_, fun ha => exec_of_bad_a rfl ha s⟩
  · have hsp := State.sp_loadTop_of_ne (s := s) hne
    rw [execPop_eq ha (hsp ▸ hs), hsp]
    rfl
  · have hregs : (s.regs.set 7 (s.memRead s.sp)).set 7 (s.memRead s.sp + 1)
        = s.regs.set 7 (s.memRead s.sp + 1) := Vector.set_set ..
    rw [execPop_eq (r := 7) ha (hsp7 ▸ hs), hsp7, ← hregs]
    rfl
  · obtain ⟨r, hr⟩ := exists_reg (Nat.le_of_lt ha)
    have hne : r ≠ 7 := by
      rintro rfl
      exact ha.ne hr
    have hsp := State.sp_loadTop_of_ne (s := s) hne
    rw [execPop_at_top hr (hsp ▸ hs), hsp]
    rfl
  · rw [execPop_at_top (r := 7) ha (hsp7 ▸ hs), hsp7]
    rfl

/-! ### CALL and RET -/

/-- CALL at SP = 0 raises the stack's fault (R88, R92). -/
theorem execCall_at_zero (ha : a.toNat = r.val) (hs : s.sp.toNat = 0) :
    exec (.call a) s
      = .next (s.takeFault .stackOutOfRange (some Op.call.opcode) (.stack s.sp .push)) := by
  simp only [exec, execCall, withRegA, withReg_of_eq ha, State.push_eq, if_pos hs, raiseStack,
    raise]

/-- Settles O33: the push of the return address and the jump to the register as it then is, or one
of the two faults. -/
theorem callPushesTheReturnAddress : Obligations.CallPushesTheReturnAddress := by
  intro a s
  refine ⟨fun b => decode_encode (.call a) [b], rfl, fun r ha hp hs => ?_, fun ha hs => ?_,
    fun ha => exec_of_bad_a rfl ha s⟩
  · refine ⟨_, execCall_eq ha hs, rfl, rfl, ?_, fun x hx => Memory.read_write_of_ne _ _ hx,
      rfl, rfl, rfl, rfl⟩
    exact (congrArg BitVec.toNat (Memory.read_write_self ..)).trans (toNat_returnAddress hp)
  · obtain ⟨r, hr⟩ := exists_reg ha
    exact execCall_at_zero hr hs

/-- RET at SP = 255 raises the stack's fault (R89, R93). -/
theorem execRet_at_top (hs : s.sp.toNat = 255) :
    exec .ret s
      = .next (s.takeFault .stackOutOfRange (some Op.ret.opcode) (.stack s.sp .pop)) := by
  simp only [exec, execRet, State.pop_eq, if_pos hs, raiseStack,
    raise]

/-- Settles O34: SP is 255, and RET faults, or not, and it pops the pc. -/
theorem retPopsThePc : Obligations.RetPopsThePc :=
  fun _ => ⟨fun a b => decode_encode .ret [a, b], rfl, execRet_eq, execRet_at_top⟩

/-! ### JMP, JEQ, JNE and HLT -/

/-- Settles O36: the operand names a register, or is the byte the fault names. -/
theorem jmpGoesToTheRegister : Obligations.JmpGoesToTheRegister :=
  fun a s => ⟨fun b => decode_encode (.jmp a) [b], rfl, fun _ ha => execJmp_eq ha s,
    fun ha => exec_of_bad_a rfl ha s⟩

/-- The pc after a jump: at the register when it is taken, else past the two bytes (R95, R96). -/
theorem branch_eq (taken : Bool) (r : Reg) (s : State) :
    branch taken r s = .next (s.setPc (if taken then (s.reg r).toNat else s.pc + 2)) := by
  cases taken <;> rfl

/-- JEQ of a register is taken when E = 1 (R95). -/
theorem execJeq_eq (ha : a.toNat = r.val) (s : State) :
    exec (.jeq a) s = .next (s.setPc (if s.flags.e then (s.reg r).toNat else s.pc + 2)) :=
  (withReg_of_eq ha s _).trans (branch_eq ..)

/-- JNE of a register is taken when E = 0 (R96). -/
theorem execJne_eq (ha : a.toNat = r.val) (s : State) :
    exec (.jne a) s = .next (s.setPc (if s.flags.e then s.pc + 2 else (s.reg r).toNat)) := by
  refine (withReg_of_eq ha s _).trans ((branch_eq ..).trans ?_)
  cases s.flags.e <;> rfl

/-- Settles O37: the jump by the value of E, or the fault of the operand whatever E is. -/
theorem jeqJumpsWhenEqual : Obligations.JeqJumpsWhenEqual := by
  intro a s
  refine ⟨fun b => decode_encode (.jeq a) [b], rfl, fun r ha he => ?_, fun ha he => ?_,
    fun ha => exec_of_bad_a rfl ha s⟩
  · rw [execJeq_eq ha, he]
    rfl
  · obtain ⟨r, hr⟩ := exists_reg ha
    rw [execJeq_eq hr, he]
    rfl

/-- Settles O38: the jump by the value of E, or the fault of the operand whatever E is. -/
theorem jneJumpsWhenNotEqual : Obligations.JneJumpsWhenNotEqual := by
  intro a s
  refine ⟨fun b => decode_encode (.jne a) [b], rfl, fun r ha he => ?_, fun ha he => ?_,
    fun ha => exec_of_bad_a rfl ha s⟩
  · rw [execJne_eq ha, he]
    rfl
  · obtain ⟨r, hr⟩ := exists_reg ha
    rw [execJne_eq hr, he]
    rfl

/-- Settles O41: HLT sets the halt flag, and with no record that makes the block Halted. -/
theorem hltHaltsInPlace : Obligations.HltHaltsInPlace :=
  fun _ => ⟨fun a b => decode_encode .hlt [a, b], rfl, rfl,
    fun hf => (State.status_halted_iff _).mpr ⟨rfl, hf⟩⟩

/-! ### The next pc -/

/-- The pc after a completed instruction, by the table of R27. -/
def NextPc (s t : State) : Instr → Prop
  | .hlt => t.pc = s.pc
  | .ret => t.pc = (s.memRead s.sp).toNat
  | .push _ | .pop _ | .prn _ => t.pc = s.pc + 2
  | .ldi _ _ | .add _ _ | .mul _ _ | .cmp _ _ => t.pc = s.pc + 3
  | .call a => ∀ r : Reg, a.toNat = r.val →
      t.pc = (t.reg r).toNat ∧ t.memRead t.sp = returnAddress s
  | .jmp a => ∀ r : Reg, a.toNat = r.val → t.pc = (s.reg r).toNat
  | .jeq a => ∀ r : Reg, a.toNat = r.val →
      t.pc = if s.flags.e then (s.reg r).toNat else s.pc + 2
  | .jne a => ∀ r : Reg, a.toNat = r.val →
      t.pc = if s.flags.e then s.pc + 2 else (s.reg r).toNat

/-- The first operand of a completed instruction names a register. -/
theorem Completes.exists_reg (hc : Completes i s t) (hi : i.operands.head? = some a) :
    ∃ r : Reg, a.toNat = r.val :=
  Machine.exists_reg (Instr.first_le_of_wf hc.wf hi)

/-- A PUSH or a CALL of a register at SP = 0 takes the stack's fault. -/
theorem takesFault_of_exec_at_zero (hi : i = .push a ∨ i = .call a) (ha : a.toNat = r.val)
    (hs : s.sp.toNat = 0) (h : exec i s = .next t) : TakesFault i s t := by
  have hf : FaultReason i s .stackOutOfRange (.stack s.sp .push) := .pushAtZero a hi (reg_le ha) hs
  obtain rfl | rfl := hi
  · cases (execPush_at_zero ha hs).symm.trans h
    exact ⟨_, _, hf, rfl⟩
  · cases (execCall_at_zero ha hs).symm.trans h
    exact ⟨_, _, hf, rfl⟩

/-- A completed CALL goes to its register as it is after the push (92_eei_decisions.md D9), and the
return address is on top of the stack. -/
theorem nextPc_call (hs : s.sp.toNat ≠ 0) (h : exec (.call a) s = .next t) :
    NextPc s t (.call a) := by
  intro r hr
  cases (execCall_eq hr hs).symm.trans h
  exact ⟨congrArg BitVec.toNat (State.reg_setSp ..).symm,
    (congrArg (State.memRead _) (State.sp_setSp ..)).trans (State.memRead_memWrite_self ..)⟩

/-- Every instruction takes one of its faults, or leaves the pc where the table says. -/
theorem exec_nextPc (h : exec i s = .next t) : TakesFault i s t ∨ NextPc s t i := by
  refine (exec_cases h).elim .inl fun hc => ?_
  cases i with
  | hlt =>
    cases h
    exact .inr rfl
  | ret =>
    by_cases hs : s.sp.toNat = 255
    · cases (execRet_at_top hs).symm.trans h
      exact .inl ⟨_, _, .retAtTop rfl hs, rfl⟩
    · cases (execRet_eq hs).symm.trans h
      exact .inr rfl
  | push a =>
    obtain ⟨r, hr⟩ := hc.exists_reg rfl
    by_cases hs : s.sp.toNat = 0
    · exact .inl (takesFault_of_exec_at_zero (.inl rfl) hr hs h)
    · cases (execPush_eq hr hs).symm.trans h
      exact .inr rfl
  | pop a =>
    obtain ⟨r, hr⟩ := hc.exists_reg rfl
    by_cases hs : (s.loadTop r).sp.toNat = 255
    · cases (execPop_at_top hr hs).symm.trans h
      rw [sp_after_load hr] at hs ⊢
      exact .inl ⟨_, _, .popAtTop a rfl (reg_le hr) hs, rfl⟩
    · cases (execPop_eq hr hs).symm.trans h
      exact .inr rfl
  | prn a =>
    obtain ⟨r, hr⟩ := hc.exists_reg rfl
    cases (execPrn_eq hr s).symm.trans h
    exact .inr rfl
  | call a =>
    obtain ⟨r, hr⟩ := hc.exists_reg rfl
    by_cases hs : s.sp.toNat = 0
    · exact .inl (takesFault_of_exec_at_zero (.inr rfl) hr hs h)
    · exact .inr (nextPc_call hs h)
  | jmp a =>
    refine .inr fun r hr => ?_
    cases (execJmp_eq hr s).symm.trans h
    rfl
  | jeq a =>
    refine .inr fun r hr => ?_
    cases (execJeq_eq hr s).symm.trans h
    rfl
  | jne a =>
    refine .inr fun r hr => ?_
    cases (execJne_eq hr s).symm.trans h
    rfl
  | ldi a b =>
    obtain ⟨r, hr⟩ := hc.exists_reg rfl
    cases (execLdi_eq hr b s).symm.trans h
    exact .inr rfl
  | add a b | mul a b | cmp a b =>
    obtain ⟨ra, ha⟩ := hc.exists_reg rfl
    obtain ⟨rb, hb⟩ := exists_reg (Instr.second_le_of_wf hc.wf (a := a) (b := b) (by simp))
    cases (withRegAB_of_eq ha hb _ s _).symm.trans h
    exact .inr rfl

/-- Settles O40: a fault leaves the pc, and the instruction at pc, when it does not fault, leaves it
where the table says. -/
theorem nextPcOfEachInstruction : Obligations.NextPcOfEachInstruction := by
  intro s t _ h
  refine ⟨fun hst => ?_, fun hst => ?_⟩
  · obtain ⟨r, hr⟩ := State.exists_fault_of_faulted hst
    rw [(stepFault_of_step h hr).2]
  have next (i : Instr) (hi : s.AtInstr i) : NextPc s t i :=
    (exec_nextPc (step_of_atInstr hi ▸ h)).resolve_left fun hf => hst hf.status_faulted
  refine ⟨next .hlt, next .ret, fun a b i hi hform => ?_, fun a i hi hform => ?_,
    fun a r ha => ⟨fun hi => ?_, fun hi => next _ hi r ha, fun hi => next _ hi r ha,
      fun hi => next _ hi r ha⟩⟩
  · obtain rfl | rfl | rfl | rfl := hform <;> exact next _ hi
  · obtain rfl | rfl | rfl := hform <;> exact next _ hi
  · obtain ⟨hpc, hstored⟩ := next _ hi r ha
    exact ⟨hpc, by rw [hstored, toNat_returnAddress hi.2.1]⟩

end Sys2Proof.Machine
end
